-- ==== Sys2Proof/Word.lean ====
section
/-! DEFINITION. The words of the clock core: the widths the spec fixes (10_state.md R20, 30_encoding.md R80, R86).
Values of width `W_MS` and `CNT_W` have no fixed width, so they are natural numbers (assumption log, entry 2). -/

namespace Sys2Proof

/-- One BCD digit register, `BCD_W` = 4 bits, unsigned (R21). -/
abbrev Digit := BitVec 4

/-- A command word `cmd[7:0]` of the bank (R80). -/
abbrev CommandWord := BitVec 8

/-- A read select `rsel[3:0]` of the bank (R86). -/
abbrev ReadSelect := BitVec 4

/-- The value of the bank's read port, `rdata[5:0]` (R86). -/
abbrev ReadData := BitVec 6

/-- A display position (R28): 0..5 name a digit, 6 and 7 are never reached. -/
abbrev Position := BitVec 3

end Sys2Proof
end

