-- ==== Sys2Proof/Config.lean ====
section
/-! DEFINITION. What an implementation fixes: the constants of 00_scope.md R4, the open parameters of R5 to R7, and the
free values (inputs nobody scripted, the power-up contents). An opaque constant has no value a proof could use. -/

namespace Sys2Proof

/-- The parameters fixed when the block is built (R35): `W_MS` (R5) and `DWELL_CYC` (R6). -/
structure Params where
  /-- `W_MS`, the width of `now` and of every timestamp register (R5). -/
  wMs : Nat
  /-- `DWELL_CYC`, the ON cycles per display position (R6). -/
  dwellCyc : Nat
  deriving DecidableEq, Repr

/-- The spec's constraints on the parameters: `W_MS >= 11` (R5) and `DWELL_CYC >= 1` (R6). -/
abbrev Params.Wf (p : Params) : Prop := 11 ≤ p.wMs ∧ 1 ≤ p.dwellCyc

namespace Config

/-- `TICK_MS`: `now` advances once per millisecond (R4). -/
def tickMs : Nat := 1

/-- `SECOND_MS`: the threshold of the 1 Hz gate (R4). -/
def secondMs : Nat := 1000

/-- `DEBOUNCE_MS`: the debounce interval (R4). -/
def debounceMs : Nat := 200

/-- `NDIG`: digit registers and enable lines (R4). -/
def nDig : Nat := 6

/-- `CNT_W`: the width of the dwell counter, `max(1, ceil(log2(DWELL_CYC)))` (10_state.md R20, D34). -/
def cntW (p : Params) : Nat := max 1 (Nat.clog 2 p.dwellCyc)

/-- How far `W_MS` lies above its least value 11. UNSPECIFIED BY THE SPEC (R5): no value. -/
opaque wMsAbove : Nat

/-- How far `DWELL_CYC` lies above its least value 1. UNSPECIFIED BY THE SPEC (R6): no value. -/
opaque dwellAbove : Nat

/-- The parameters of the implementation at hand: any that meet R5 and R6 (assumption log, entry 1). -/
def params : Params where
  wMs := wMsAbove + 11
  dwellCyc := dwellAbove + 1

/-- `T_CLK`, the period of `clk` in whatever unit (R7). Read by no rule of the machine. -/
opaque tClk : Nat

/-- Free `rst` of the n-th input vector the environment was not scripted to give (R9, R214). -/
opaque freeRst : Nat → Bool

/-- Free `now` of the n-th unscripted input vector (R213 condition 2). -/
opaque freeNow : Nat → Nat

/-- Free level of `btn_hour_n` in the n-th unscripted input vector (R213 condition 4). -/
opaque freeBtnHourN : Nat → Bool

/-- Free level of `btn_min_n` in the n-th unscripted input vector (R213 condition 4). -/
opaque freeBtnMinN : Nat → Bool

/-- The contents of the n-th register before the first reset: unspecified (10_state.md R36). -/
opaque powerUp : Nat → Nat

/-- Cycles of one sweep, `6 * (DWELL_CYC + 2)` (41_display_mux.md R149). -/
def sweepCycles (p : Params) : Nat := 6 * (p.dwellCyc + 2)

/-- Cycles of one iteration, `P = 3 + 6 * (DWELL_CYC + 2)` (43_controller.md R206). -/
def iterationCycles (p : Params) : Nat := 3 + sweepCycles p

/-- Real time of one iteration, `P * T_CLK` (70_reset_and_hazards.md R271). -/
def iterationTime (p : Params) : Nat := iterationCycles p * tClk

end Config

end Sys2Proof
end

