-- ==== Sys2Proof/Syntax.lean ====
section
/-! DEFINITION. The operations of the clock core: one constructor of `Instr` per row of spec/opcode_table.json, and the
codes that select them, one form per format of the table. -/

namespace Sys2Proof

/-- The two debouncer instances (42_debouncer.md R170). -/
inductive Button where
  /-- The hour instance: pin `btn_hour_n`, registers `sy_h`, `lvl_h`, `tf_h`. -/
  | hour
  /-- The minute instance: pin `btn_min_n`, registers `sy_m`, `lvl_m`, `tf_m`. -/
  | minute
  deriving DecidableEq, Repr

/-- The operations, in the families of the table. A don't-care field of a row is kept as an operand, so that the
encoder gives back the word that was decoded. -/
inductive Instr where
  /-- NOP, `op = 00`; `arg` is ignored (R84, R101). -/
  | nop (arg : BitVec 6)
  /-- ADV, `op = 01`; `arg` is ignored (R84, R102). -/
  | adv (arg : BitVec 6)
  /-- RSV_SETH_H: SETH with `arg[5] = 0` and `h = 24 + low` (R85, R107). -/
  | rsvSethH (low : BitVec 3)
  /-- RSV_SETH_A5: SETH with `arg[5] = 1` (R85, R107). -/
  | rsvSethA5 (low : BitVec 5)
  /-- SETH h (R82, R106). -/
  | seth (h : BitVec 5)
  /-- RSV_SETM: SETM with `m = 60 + low` (R85, R109). -/
  | rsvSetm (low : BitVec 2)
  /-- SETM m (R83, R108). -/
  | setm (m : BitVec 6)
  /-- RSV_GETD: read selects `011x` (R87, R113). -/
  | rsvGetd (x : BitVec 1)
  /-- GETD p (R86, R112). -/
  | getd (p : Position)
  /-- GETH (R86, R110). -/
  | geth
  /-- GETM (R86, R111). -/
  | getm
  /-- RSV_RSEL_101x: read selects `101x` (R87, R113). -/
  | rsvRsel101 (x : BitVec 1)
  /-- RSV_RSEL_11xx: read selects `11xx` (R87, R113). -/
  | rsvRsel11 (x : BitVec 2)
  /-- GATE: the 1 Hz gate (R88, R202). -/
  | gate
  /-- POLL_H: poll the hour button, perhaps advance the hour (R88, R203). -/
  | pollH
  /-- POLL_M: poll the minute button, perhaps advance the minute, start the sweep (R88, R204). -/
  | pollM
  /-- DRIVE: phase (a) of a position (R89, R143). -/
  | muxDrive
  /-- ON: phases (b) and (c) of a position (R89, R144). -/
  | muxOn
  /-- OFF: phase (d) of a position (R89, R145). -/
  | muxOff
  /-- RSV_PHASE: the reserved phase `11` in SWEEP (R89, R146). -/
  | muxReserved
  /-- POLL of one instance by itself (R173). -/
  | poll (b : Button)
  /-- RESET: `rst = 1` at an edge (R260). -/
  | reset
  deriving DecidableEq, Repr

/-- What selects an operation: one form per format of the table (30_encoding.md R80, R86, R88, R89; R173; R260). -/
inductive Code where
  /-- CMD8: a word at the bank's command port. -/
  | cmd (w : CommandWord)
  /-- RSEL4: a select at the bank's read port. -/
  | rsel (w : ReadSelect)
  /-- SEQPH4: the internal code `{seq, phase}`. -/
  | seqph (w : BitVec 4)
  /-- The code `ss00` of a poll asked of one debouncer instance by itself (assumption log, entry 9). -/
  | poll (w : BitVec 4)
  /-- RST1: the level of `rst` at an edge. -/
  | rst (w : BitVec 1)
  deriving DecidableEq, Repr

/-- A line of a bank program (R91) or a pseudo-instruction (R92); operands as written, before any range check. -/
inductive Statement where
  | nop
  | adv
  | seth (h : Nat)
  | setm (m : Nat)
  | getd (p : Nat)
  | geth
  | getm
  /-- `.word 0xNN`: any byte as the command word. -/
  | word (w : Nat)
  /-- `ADVN n`: n copies of ADV. -/
  | advn (n : Nat)
  /-- `WAIT n`: n copies of NOP. -/
  | wait (n : Nat)
  /-- `SETT hh:mm`: SETH hh, then SETM mm. -/
  | sett (hh mm : Nat)
  deriving DecidableEq, Repr

/-- The formats of spec/opcode_table.json. -/
inductive Format where
  | cmd8
  | rsel4
  | seqph4
  | rst1
  deriving DecidableEq, Repr

end Sys2Proof
end

