-- ==== Sys2Proof/WellFormed.lean ====
section
/-! DEFINITION. Which terms of `Instr` are instructions: the operand ranges of 30_encoding.md R82, R83, R86. -/

namespace Sys2Proof

/-- SETH takes `h` in 0..23 (R82), SETM `m` in 0..59 (R83), GETD `p` in 0..5 (R86); the words outside these ranges
belong to the reserved rows (R93). Every other term is well formed. -/
def Instr.wellFormed : Instr → Bool
  | .seth h => decide (h.toNat ≤ 23)
  | .setm m => decide (m.toNat ≤ 59)
  | .getd p => decide (p.toNat ≤ 5)
  | .nop _ | .adv _ | .rsvSethH _ | .rsvSethA5 _ | .rsvSetm _ | .rsvGetd _ | .geth | .getm | .rsvRsel101 _
  | .rsvRsel11 _ | .gate | .pollH | .pollM | .muxDrive | .muxOn | .muxOff | .muxReserved | .poll _ | .reset => true

end Sys2Proof
end

