-- ==== Sys2Proof/Decode.lean ====
section
/-! DEFINITION. Decoding, total on every code, and the encoder after it (30_encoding.md R80 to R93), with the opcode
table of spec/opcode_table.json as a list of rows in the order in which rows take precedence (R93). -/

namespace Sys2Proof

/-- Why a code names no operation. -/
inductive DecodeError where
  /-- `rst = 0` selects no RESET (R260). -/
  | rstLow
  /-- The code is not that of the hour or the minute instance (R173). -/
  | noInstance
  deriving DecidableEq, Repr

/-- A command word: `op = cmd[7:6]`, `arg = cmd[5:0]`; the reserved operands of R85 come before SETH and SETM (R93). -/
def decodeCommand (w : CommandWord) : Instr :=
  if w.extractLsb' 6 2 = 0b00#2 then .nop (w.extractLsb' 0 6)
  else if w.extractLsb' 6 2 = 0b01#2 then .adv (w.extractLsb' 0 6)
  else if w.extractLsb' 6 2 = 0b10#2 then
    if w.extractLsb' 5 1 = 1#1 then .rsvSethA5 (w.extractLsb' 0 5)
    else if 24 ≤ (w.extractLsb' 0 5).toNat then .rsvSethH (w.extractLsb' 0 3)
    else .seth (w.extractLsb' 0 5)
  else if 60 ≤ (w.extractLsb' 0 6).toNat then .rsvSetm (w.extractLsb' 0 2)
  else .setm (w.extractLsb' 0 6)

/-- A read select (R86), the reserved ones by R87. -/
def decodeRead (w : ReadSelect) : Instr :=
  if w.extractLsb' 3 1 = 0#1 then
    if (w.extractLsb' 0 3).toNat ≤ 5 then .getd (w.extractLsb' 0 3) else .rsvGetd (w.extractLsb' 0 1)
  else if w = 0b1000#4 then .geth
  else if w = 0b1001#4 then .getm
  else if w.extractLsb' 1 3 = 0b101#3 then .rsvRsel101 (w.extractLsb' 0 1)
  else .rsvRsel11 (w.extractLsb' 0 2)

/-- `{seq, phase}`: `seq` selects the operation (R88, R201); inside SWEEP `phase` does (R89). DEDUCED: outside SWEEP the
phase, which is DRIVE in every reachable state (R38), is not looked at (assumption log, entry 8). -/
def decodeInternal (w : BitVec 4) : Instr :=
  if w.extractLsb' 2 2 = 0b00#2 then .gate
  else if w.extractLsb' 2 2 = 0b01#2 then .pollH
  else if w.extractLsb' 2 2 = 0b10#2 then .pollM
  else if w.extractLsb' 0 2 = 0b00#2 then .muxDrive
  else if w.extractLsb' 0 2 = 0b01#2 then .muxOn
  else if w.extractLsb' 0 2 = 0b10#2 then .muxOff
  else .muxReserved

/-- `ss00`: the hour instance is that of POLL_H, the minute instance that of POLL_M (R173). -/
def decodePoll (w : BitVec 4) : Except DecodeError Instr :=
  if w = 0b0100#4 then .ok (.poll .hour)
  else if w = 0b1000#4 then .ok (.poll .minute)
  else .error .noInstance

/-- The level of `rst` at an edge (R260). -/
def decodeReset (w : BitVec 1) : Except DecodeError Instr :=
  if w = 1#1 then .ok .reset else .error .rstLow

/-- The decoder in full (R93). -/
def decode : Code → Except DecodeError Instr
  | .cmd w => .ok (decodeCommand w)
  | .rsel w => .ok (decodeRead w)
  | .seqph w => .ok (decodeInternal w)
  | .poll w => decodePoll w
  | .rst w => decodeReset w

/-- The code of one debouncer instance, `ss00` (R173). -/
def Button.code : Button → BitVec 4
  | .hour => 0b0100#4
  | .minute => 0b1000#4

/-- The encoder: the code that the tables of R81 to R89 give an instruction. -/
def encode : Instr → Code
  | .nop arg => .cmd (0b00#2 ++ arg)
  | .adv arg => .cmd (0b01#2 ++ arg)
  | .rsvSethH low => .cmd (0b10011#5 ++ low)
  | .rsvSethA5 low => .cmd (0b101#3 ++ low)
  | .seth h => .cmd (0b100#3 ++ h)
  | .rsvSetm low => .cmd (0b111111#6 ++ low)
  | .setm m => .cmd (0b11#2 ++ m)
  | .rsvGetd x => .rsel (0b011#3 ++ x)
  | .getd p => .rsel (0b0#1 ++ p)
  | .geth => .rsel 0b1000#4
  | .getm => .rsel 0b1001#4
  | .rsvRsel101 x => .rsel (0b101#3 ++ x)
  | .rsvRsel11 x => .rsel (0b11#2 ++ x)
  | .gate => .seqph 0b0000#4
  | .pollH => .seqph 0b0100#4
  | .pollM => .seqph 0b1000#4
  | .muxDrive => .seqph 0b1100#4
  | .muxOn => .seqph 0b1101#4
  | .muxOff => .seqph 0b1110#4
  | .muxReserved => .seqph 0b1111#4
  | .poll b => .poll b.code
  | .reset => .rst 1#1

/-- The format a code is of; a poll's `ss00` is of format SEQPH4 in the table. -/
def Code.format : Code → Format
  | .cmd _ => .cmd8
  | .rsel _ => .rsel4
  | .seqph _ => .seqph4
  | .poll _ => .seqph4
  | .rst _ => .rst1

/-- A code's bits as a number, bit 0 the least significant. -/
def Code.bits : Code → BitVec 8
  | .cmd w => w
  | .rsel w => w.setWidth 8
  | .seqph w => w.setWidth 8
  | .poll w => w.setWidth 8
  | .rst w => w.setWidth 8

/-- A row of spec/opcode_table.json: the bits under `mask` are those of `pattern`. -/
structure Row where
  mnemonic : String
  format : Format
  mask : BitVec 8
  pattern : BitVec 8
  deriving DecidableEq, Repr

/-- The row an instruction is an instance of. -/
def Instr.row : Instr → Row
  | .nop _ => ⟨"NOP", .cmd8, 0xC0, 0x00⟩
  | .adv _ => ⟨"ADV", .cmd8, 0xC0, 0x40⟩
  | .rsvSethH _ => ⟨"RSV_SETH_H", .cmd8, 0xF8, 0x98⟩
  | .rsvSethA5 _ => ⟨"RSV_SETH_A5", .cmd8, 0xE0, 0xA0⟩
  | .seth _ => ⟨"SETH", .cmd8, 0xC0, 0x80⟩
  | .rsvSetm _ => ⟨"RSV_SETM", .cmd8, 0xFC, 0xFC⟩
  | .setm _ => ⟨"SETM", .cmd8, 0xC0, 0xC0⟩
  | .rsvGetd _ => ⟨"RSV_GETD", .rsel4, 0x0E, 0x06⟩
  | .getd _ => ⟨"GETD", .rsel4, 0x08, 0x00⟩
  | .geth => ⟨"GETH", .rsel4, 0x0F, 0x08⟩
  | .getm => ⟨"GETM", .rsel4, 0x0F, 0x09⟩
  | .rsvRsel101 _ => ⟨"RSV_RSEL_101x", .rsel4, 0x0E, 0x0A⟩
  | .rsvRsel11 _ => ⟨"RSV_RSEL_11xx", .rsel4, 0x0C, 0x0C⟩
  | .gate => ⟨"GATE", .seqph4, 0x0F, 0x00⟩
  | .pollH => ⟨"POLL_H", .seqph4, 0x0F, 0x04⟩
  | .pollM => ⟨"POLL_M", .seqph4, 0x0F, 0x08⟩
  | .muxDrive => ⟨"DRIVE", .seqph4, 0x0F, 0x0C⟩
  | .muxOn => ⟨"ON", .seqph4, 0x0F, 0x0D⟩
  | .muxOff => ⟨"OFF", .seqph4, 0x0F, 0x0E⟩
  | .muxReserved => ⟨"RSV_PHASE", .seqph4, 0x0F, 0x0F⟩
  | .poll _ => ⟨"POLL", .seqph4, 0x03, 0x00⟩
  | .reset => ⟨"RESET", .rst1, 0x01, 0x01⟩

/-- The opcode table, in its own order, in which the reserved rows come before the rows they overlap (R93). -/
def opcodeTable : List Row :=
  [Instr.row (.nop 0), Instr.row (.adv 0), Instr.row (.rsvSethH 0), Instr.row (.rsvSethA5 0), Instr.row (.seth 0),
    Instr.row (.rsvSetm 0), Instr.row (.setm 0)]
  ++ [Instr.row (.rsvGetd 0), Instr.row (.getd 0), Instr.row .geth, Instr.row .getm, Instr.row (.rsvRsel101 0),
    Instr.row (.rsvRsel11 0)]
  ++ [Instr.row .gate, Instr.row .pollH, Instr.row .pollM, Instr.row .muxDrive, Instr.row .muxOn, Instr.row .muxOff,
    Instr.row .muxReserved, Instr.row (.poll .hour), Instr.row .reset]

/-- A row matches a code of its format whose bits under the mask are the row's. -/
def Row.covers (r : Row) (c : Code) : Bool :=
  decide (r.format = c.format) && decide (c.bits &&& r.mask = r.pattern)

/-- The row the table gives a code: the first that matches. -/
def tableRow (c : Code) : Option Row := opcodeTable.find? (fun r => r.covers c)

/-- Which port a word of the table's numbering is for, by its length: 8 bits at the command port, 4 at the read port,
1 at `rst`. SEQPH4 codes are never presented, the state holds them (R88) (assumption log, entry 10). -/
def tableCode (nbits w : Nat) : Option Code :=
  if nbits = 8 then some (.cmd (BitVec.ofNat 8 w))
  else if nbits = 4 then some (.rsel (BitVec.ofNat 4 w))
  else if nbits = 1 then some (.rst (BitVec.ofNat 1 w))
  else none

/-- What the decoder reads from a word numbered as spec/opcode_table.json numbers it. -/
def decodeTableWord (nbits w : Nat) : Option Instr :=
  match tableCode nbits w with
  | none => none
  | some c => (decode c).toOption

end Sys2Proof
end

