-- ==== Sys2Proof/Machine/State.lean ====
section
/-! DEFINITION. The state of the clock core: the registers of 10_state.md R20, exactly, and beside them the parameters,
the sampled inputs, the two observed results and the stimuli still to come (the model's own fields, listed in
INVENTORY.md). Why a step can stop. The state after reset. -/

namespace Sys2Proof.Machine

/-- The sequencer state `seq` (R27). -/
inductive SeqState where
  | gate
  | pollH
  | pollM
  | sweep
  deriving DecidableEq, Repr

/-- The multiplexer phase `phase` (R29); `reserved` is the encoding `11`, which no run reaches. -/
inductive Phase where
  | drive
  | on
  | off
  | reserved
  deriving DecidableEq, Repr

/-- The Digit Register Bank: the time `A B : C D : E F` (R21). -/
structure Bank where
  /-- `dig[0]`, hours tens. -/
  A : Digit
  /-- `dig[1]`, hours units. -/
  B : Digit
  /-- `dig[2]`, minutes tens. -/
  C : Digit
  /-- `dig[3]`, minutes units. -/
  D : Digit
  /-- `dig[4]`, seconds tens. -/
  E : Digit
  /-- `dig[5]`, seconds units. -/
  F : Digit
  deriving DecidableEq, Repr

/-- One debouncer instance (R32) with its pin synchroniser (R33). -/
structure Debouncer where
  /-- Last observed logical level: true is 1, pressed. -/
  lvl : Bool
  /-- `now` at the last poll that fired. -/
  tf : Nat
  /-- `{sy[1], sy[0]}`. -/
  sy : BitVec 2
  deriving DecidableEq, Repr

/-- The registers of R20: nothing else of the hardware persists from one cycle to the next. -/
structure Regs where
  bank : Bank
  /-- Sequencer state (R27). -/
  seq : SeqState
  /-- Display position (R28). -/
  pos : Position
  /-- Multiplexer phase (R29). -/
  phase : Phase
  /-- Dwell counter, `CNT_W` bits (R30). -/
  cnt : Nat
  /-- `last_sec`, the 1 Hz gate boundary (R31). -/
  lastSec : Nat
  /-- `lvl_h`, `tf_h`, `sy_h`. -/
  hour : Debouncer
  /-- `lvl_m`, `tf_m`, `sy_m`. -/
  minute : Debouncer
  deriving DecidableEq, Repr

/-- One input vector of the clock core (00_scope.md R9, 43_controller.md R200); the pins are active low, so true is
released. -/
structure Inputs where
  rst : Bool
  now : Nat
  btnHourN : Bool
  btnMinN : Bool
  deriving DecidableEq, Repr

/-- What is done to the block next (assumption log, entries 3 and 4). -/
inductive Stimulus where
  /-- A rising edge of `clk` of the whole clock core, with the inputs sampled at it (R201). -/
  | edge (v : Inputs)
  /-- An edge of the bank alone: the level of `rst` and the command word presented (R100). -/
  | command (rst : Bool) (w : CommandWord)
  /-- A read of the bank; it takes no cycle (R86, R91). -/
  | read (sel : ReadSelect)
  /-- A poll of one debouncer instance alone, whose pin was held at the given logical level, at the given `now`
  (R173). -/
  | poll (b : Button) (pressed : Bool) (now : Nat)
  deriving DecidableEq, Repr

/-- The machine. -/
structure State where
  /-- The parameters of R5 and R6; nothing writes them (R35). -/
  params : Params
  /-- The registers of R20. -/
  regs : Regs
  /-- The inputs sampled last (R200). The model's own. -/
  pins : Inputs
  /-- The value the read port gave the last bank read (R86). The model's own record of an output. -/
  rdata : ReadData
  /-- What the last poll returned (R170, R173). The model's own record of an output. -/
  fire : Bool
  /-- The stimuli to come, oldest first. The model's own. -/
  pending : List Stimulus
  /-- How many free input vectors have been drawn. The model's own counter of free values. -/
  draws : Nat
  deriving DecidableEq, Repr

/-- Why a step faults: for no reason, since no operation of the block raises an exception, traps or halts
(60_exceptions.md R230). -/
inductive Fault where
  deriving DecidableEq, Repr

/-- Why a step is refused. -/
inductive Refusal where
  /-- Raised by an arm of `exec` whose instruction has no meaning yet. Safe. -/
  | notModelled (mnemonic : String)
  /-- Raised by a step whose stimulus selects no operation; no stimulus does (R93). Safe. -/
  | noOperation (e : DecodeError)
  deriving DecidableEq, Repr

/-- The bank after reset, `00:00:00` (R20, 70_reset_and_hazards.md R260). -/
def Bank.zero : Bank := ⟨0, 0, 0, 0, 0, 0⟩

/-- A debouncer instance after reset: released, and both flip-flops at 1 (R32, R33, R260). -/
def Debouncer.released : Debouncer := ⟨false, 0, 0b11#2⟩

/-- The reset values of R20 and R260. -/
def Regs.reset : Regs where
  bank := Bank.zero
  seq := .gate
  pos := 0
  phase := .drive
  cnt := 0
  lastSec := 0
  hour := Debouncer.released
  minute := Debouncer.released

/-- The inputs before any edge is sampled: DESIGN CHOICE (assumption log, entry 6). -/
def Inputs.idle : Inputs := ⟨false, 0, true, true⟩

/-- The machine right after a reset edge, with nothing scripted. -/
def State.reset : State where
  params := Config.params
  regs := Regs.reset
  pins := Inputs.idle
  rdata := 0
  fire := false
  pending := []
  draws := 0

end Sys2Proof.Machine
end

