-- ==== Sys2Proof/Machine/Operands.lean ====
section
/-! DEFINITION. How operations read what they act on: arithmetic at width `W_MS` (00_scope.md R11), the digits by
position and the read port (R86, R110 to R113), the logical level of a pin (R172), the codes of `seq` and `phase`. -/

namespace Sys2Proof.Machine

/-- `trunc_W`: the low `w` bits of a number (R10). -/
def truncW (w n : Nat) : Nat := n % 2 ^ w

/-- `sub_W(a, b)`, unsigned wrap-around subtraction at width `w`: `(a - b) mod 2^w` (R11). -/
def subW (w a b : Nat) : Nat := (a + (2 ^ w - b % 2 ^ w)) % 2 ^ w

/-- The 2-bit encoding of `seq` (R27, R88). -/
def SeqState.bits : SeqState → BitVec 2
  | .gate => 0b00#2
  | .pollH => 0b01#2
  | .pollM => 0b10#2
  | .sweep => 0b11#2

/-- The 2-bit encoding of `phase` (R29, R89). -/
def Phase.bits : Phase → BitVec 2
  | .drive => 0b00#2
  | .on => 0b01#2
  | .off => 0b10#2
  | .reserved => 0b11#2

/-- The sequencer state of a 2-bit value. -/
def SeqState.ofBits (w : BitVec 2) : SeqState :=
  if w = 0b00#2 then .gate else if w = 0b01#2 then .pollH else if w = 0b10#2 then .pollM else .sweep

/-- The phase of a 2-bit value. -/
def Phase.ofBits (w : BitVec 2) : Phase :=
  if w = 0b00#2 then .drive else if w = 0b01#2 then .on else if w = 0b10#2 then .off else .reserved

/-- `{seq, phase}`, which names the internal operation (R89). -/
def Regs.internalCode (r : Regs) : BitVec 4 := r.seq.bits ++ r.phase.bits

/-- `dig[p]` for `p` in 0..5 (R21); the reserved positions 6 and 7 read 0 (R113). -/
def Bank.digit (b : Bank) (p : Position) : Digit :=
  if p = 0 then b.A
  else if p = 1 then b.B
  else if p = 2 then b.C
  else if p = 3 then b.D
  else if p = 4 then b.E
  else if p = 5 then b.F
  else 0

/-- GETD: `zext_6(dig[p])` (R112). -/
def Bank.readDigit (b : Bank) (p : Position) : ReadData := (b.digit p).setWidth 6

/-- GETH: `zext_6(trunc_5(10*A + B))` (R110). -/
def Bank.readHours (b : Bank) : ReadData := (BitVec.ofNat 5 (10 * b.A.toNat + b.B.toNat)).setWidth 6

/-- GETM: `trunc_6(10*C + D)` (R111). -/
def Bank.readMinutes (b : Bank) : ReadData := BitVec.ofNat 6 (10 * b.C.toNat + b.D.toNat)

/-- A reserved read returns 0 (R113). -/
def Bank.readReserved (_b : Bank) : ReadData := 0

/-- The combinational read port: `rdata` for every select (R86, R87). -/
def Bank.readPort (b : Bank) (sel : ReadSelect) : ReadData :=
  if sel.extractLsb' 3 1 = 0#1 then b.readDigit (sel.extractLsb' 0 3)
  else if sel = 0b1000#4 then b.readHours
  else if sel = 0b1001#4 then b.readMinutes
  else b.readReserved

/-- `pressed = NOT sy[1]`: true is 1, pressed (R172). -/
def Debouncer.pressed (d : Debouncer) : Bool := !d.sy.getLsbD 1

/-- One debouncer instance of the two (R170). -/
def Regs.debouncer (r : Regs) : Button → Debouncer
  | .hour => r.hour
  | .minute => r.minute

end Sys2Proof.Machine
end

