-- ==== Sys2Proof/Machine/Flags.lean ====
section
/-! DEFINITION. The one-bit values inside a step: the block stores no flags (10_state.md R34); these are the carries of
ADV (R102), the 1 Hz gate's verdict (R202) and a poll's verdict (R173). -/

namespace Sys2Proof.Machine

/-- One ripple stage of ADV: a digit that receives a carry becomes 0 and carries on at its terminal value, and is
incremented modulo 16 at every other value (R102, R103, R104). -/
def carryStage (terminal : Digit) (carry : Bool) (x : Digit) : Digit × Bool :=
  if carry then if x = terminal then (0, true) else (x + 1, false) else (x, false)

/-- Stage 5 of ADV, hours tens and units together: 23 becomes 00, a units digit 9 carries into the tens (R102). -/
def hourStage (carry : Bool) (a b : Digit) : Digit × Digit :=
  if carry then
    if a = 2 ∧ b = 3 then (0, 0)
    else if b = 9 then (a + 1, 0)
    else (a, b + 1)
  else (a, b)

/-- `gate_due = sub_W(now, last_sec) >= SECOND_MS` (R202). -/
def State.gateDue (s : State) : Bool :=
  decide (Config.secondMs ≤ subW s.params.wMs s.pins.now s.regs.lastSec)

/-- `fire`: pressed now, released at the last poll, and strictly more than `DEBOUNCE_MS` since the last firing
(R173, R175). -/
def Debouncer.fires (w : Nat) (now : Nat) (d : Debouncer) : Bool :=
  d.pressed && !d.lvl && decide (Config.debounceMs < subW w now d.tf)

/-- `fire_h` or `fire_m` at the sampled `now` (R203, R204). -/
def State.fires (s : State) (b : Button) : Bool :=
  (s.regs.debouncer b).fires s.params.wMs s.pins.now

end Sys2Proof.Machine
end

