-- ==== Sys2Proof/Machine/Ops.lean ====
section
/-! DEFINITION. The shared operations: what a command does to the bank (40_digit_bank.md), a poll and the synchroniser
(42_debouncer.md), and one edge of the clock core (43_controller.md R201).
There is no operation that takes an exception and none that returns from one: the block has none (R230, R234). -/

namespace Sys2Proof.Machine

/-- `ignore`: every register unchanged (00_scope.md R12; R101, R107, R109). -/
def State.ignore (s : State) : State := s

/-- `advance_one_second()`: the ripple carry of R102; each stage sees only its own digit and the carry before it. -/
def Bank.adv (b : Bank) : Bank :=
  let f := carryStage 9 true b.F
  let e := carryStage 5 f.2 b.E
  let d := carryStage 9 e.2 b.D
  let c := carryStage 5 d.2 b.C
  let h := hourStage c.2 b.A b.B
  ⟨h.1, h.2, c.1, d.1, e.1, f.1⟩

/-- `set_hours(h)`: `A' = h div 10`, `B' = h mod 10`, or nothing for `h` above 23 (R106, R107). -/
def Bank.setHours (b : Bank) (h : BitVec 5) : Bank :=
  if h.toNat ≤ 23 then { b with A := BitVec.ofNat 4 (h.toNat / 10), B := BitVec.ofNat 4 (h.toNat % 10) } else b

/-- `set_minutes(m)`: `C' = m div 10`, `D' = m mod 10`, or nothing for `m` above 59 (R108, R109). -/
def Bank.setMinutes (b : Bank) (m : BitVec 6) : Bank :=
  if m.toNat ≤ 59 then { b with C := BitVec.ofNat 4 (m.toNat / 10), D := BitVec.ofNat 4 (m.toNat % 10) } else b

/-- The bank after an edge at which the command word `w` was presented (R100). -/
def Bank.apply (b : Bank) (w : CommandWord) : Bank :=
  match decodeCommand w with
  | .adv _ => b.adv
  | .seth h => b.setHours h
  | .setm m => b.setMinutes m
  | .nop _ | .rsvSethH _ | .rsvSethA5 _ | .rsvSetm _ | .rsvGetd _ | .getd _ | .geth | .getm | .rsvRsel101 _
  | .rsvRsel11 _ | .gate | .pollH | .pollM | .muxDrive | .muxOn | .muxOff | .muxReserved | .poll _ | .reset => b

/-- A command to the bank alone: no other register takes part (R100). -/
def State.withBank (s : State) (b : Bank) : State := { s with regs := { s.regs with bank := b } }

/-- A bank read: the read port's value is observed and no register is written (20_memory.md R63). -/
def State.observe (s : State) (v : ReadData) : State := { s with rdata := v }

/-- The synchroniser at an edge: `sy[0] <- pin`, `sy[1] <- sy[0]` (R171). -/
def Debouncer.shift (pin : Bool) (d : Debouncer) : Debouncer :=
  { d with sy := d.sy.extractLsb' 0 1 ++ BitVec.ofBool pin }

/-- POLL: the level is always stored, the timestamp only on a fired edge (R173). -/
def Debouncer.polled (w : Nat) (now : Nat) (d : Debouncer) : Debouncer :=
  { d with lvl := d.pressed, tf := if d.fires w now then now else d.tf }

/-- One debouncer instance replaced (R170). -/
def Regs.setDebouncer (r : Regs) : Button → Debouncer → Regs
  | .hour, d => { r with hour := d }
  | .minute, d => { r with minute := d }

/-- POLL of one instance: its registers, and the result it returns (R173). -/
def State.pollOf (s : State) (b : Button) : State :=
  { s with
    regs := s.regs.setDebouncer b ((s.regs.debouncer b).polled s.params.wMs s.pins.now)
    fire := s.fires b }

/-- What every edge of the clock core does beside the operation of `seq`: both synchronisers shift (R171) and the
bank takes the command word (R100, R201). The operation's own writes are already in `s`; it writes neither the bank
nor a synchroniser. -/
def State.clocked (s : State) (cmd : CommandWord) : State :=
  { s with
    regs :=
      { s.regs with
        bank := s.regs.bank.apply cmd
        hour := s.regs.hour.shift s.pins.btnHourN
        minute := s.regs.minute.shift s.pins.btnMinN } }

/-- The canonical NOP word, presented in every cycle that changes no digit (R84, R201). -/
def nopWord : CommandWord := 0x00

/-- The canonical ADV word (R84, R202). -/
def advWord : CommandWord := 0x40

/-- `0x80 + h` with `h = (GETH + 1) mod 24` (R203). -/
def Bank.nextHourWord (b : Bank) : CommandWord :=
  BitVec.ofNat 8 (0x80 + ((b.readPort 0b1000#4).toNat + 1) % 24)

/-- `0xC0 + m` with `m = (GETM + 1) mod 60` (R204). -/
def Bank.nextMinuteWord (b : Bank) : CommandWord :=
  BitVec.ofNat 8 (0xC0 + ((b.readPort 0b1001#4).toNat + 1) % 60)

end Sys2Proof.Machine
end

