-- ==== Sys2Proof/Machine/BankCommands.lean ====
section
/-! DEFINITION. The command words of the Digit Register Bank (40_digit_bank.md R101 to R109), driven on the bank alone:
one word, one edge (R100). -/

namespace Sys2Proof.Machine

/-- NOP: the bank holds (R101); `arg` is ignored (R84). -/
def execNop (_arg : BitVec 6) (s : State) : Host.Outcome State Fault Refusal := .next s.ignore

/-- ADV: the time advances by one second (R102); `arg` is ignored (R84). -/
def execAdv (_arg : BitVec 6) (s : State) : Host.Outcome State Fault Refusal := .next (s.withBank s.regs.bank.adv)

/-- SETH with `h` in 24..31 changes no register (R107). -/
def execRsvSethH (_low : BitVec 3) (s : State) : Host.Outcome State Fault Refusal := .next s.ignore

/-- SETH with `arg[5] = 1` changes no register (R107). -/
def execRsvSethA5 (_low : BitVec 5) (s : State) : Host.Outcome State Fault Refusal := .next s.ignore

/-- SETH h (R106). -/
def execSeth (h : BitVec 5) (s : State) : Host.Outcome State Fault Refusal :=
  .next (s.withBank (s.regs.bank.setHours h))

/-- SETM with `m` in 60..63 changes no register (R109). -/
def execRsvSetm (_low : BitVec 2) (s : State) : Host.Outcome State Fault Refusal := .next s.ignore

/-- SETM m (R108). -/
def execSetm (m : BitVec 6) (s : State) : Host.Outcome State Fault Refusal :=
  .next (s.withBank (s.regs.bank.setMinutes m))

end Sys2Proof.Machine
end

