-- ==== Sys2Proof/Machine/BankReads.lean ====
section
/-! DEFINITION. The reads of the Digit Register Bank (40_digit_bank.md R110 to R113): each observes a value of the state
before any command of the cycle (R100) and writes no register (R63). -/

namespace Sys2Proof.Machine

/-- GETD 6 and GETD 7 read 0 (R113). -/
def execRsvGetd (_x : BitVec 1) (s : State) : Host.Outcome State Fault Refusal :=
  .next (s.observe s.regs.bank.readReserved)

/-- GETD p (R112). -/
def execGetd (p : Position) (s : State) : Host.Outcome State Fault Refusal :=
  .next (s.observe (s.regs.bank.readDigit p))

/-- GETH (R110). -/
def execGeth (s : State) : Host.Outcome State Fault Refusal := .next (s.observe s.regs.bank.readHours)

/-- GETM (R111). -/
def execGetm (s : State) : Host.Outcome State Fault Refusal := .next (s.observe s.regs.bank.readMinutes)

/-- Read selects 1010 and 1011 read 0 (R113). -/
def execRsvRsel101 (_x : BitVec 1) (s : State) : Host.Outcome State Fault Refusal :=
  .next (s.observe s.regs.bank.readReserved)

/-- Read selects 1100 to 1111 read 0 (R113). -/
def execRsvRsel11 (_x : BitVec 2) (s : State) : Host.Outcome State Fault Refusal :=
  .next (s.observe s.regs.bank.readReserved)

end Sys2Proof.Machine
end

