-- ==== Sys2Proof/Machine/Debounce.lean ====
section
/-! DEFINITION. POLL by itself (42_debouncer.md R173): one instance's level and timestamp, and the result. It is no edge,
so the synchroniser keeps its value (R171, R174). -/

namespace Sys2Proof.Machine

/-- POLL of one instance at the sampled `now` (R173). -/
def execPoll (b : Button) (s : State) : Host.Outcome State Fault Refusal := .next (s.pollOf b)

end Sys2Proof.Machine
end

