-- ==== Sys2Proof/Machine/Display.lean ====
section
/-! DEFINITION. The Display Multiplexer (41_display_mux.md): the outputs, functions of the state (R141, R142), and the
phases of a position (R143 to R146), each one edge of the clock core with command NOP (R205). -/

namespace Sys2Proof.Machine

/-- `en[5:0]`: one-hot at `pos` in the ON phase of a sweep, 0 otherwise (R141). -/
def State.en (s : State) : BitVec 6 :=
  if s.regs.seq = .sweep ∧ s.regs.phase = .on ∧ s.regs.pos.toNat ≤ 5 then 1#6 <<< s.regs.pos.toNat else 0#6

/-- `bcd[3:0]`: the low bits of the read of select `0, pos` (R142). -/
def State.bcd (s : State) : BitVec 4 := (s.regs.bank.readPort (0#1 ++ s.regs.pos)).setWidth 4

/-- DRIVE: then ON with `cnt = 0` (R143). -/
def execMuxDrive (s : State) : Host.Outcome State Fault Refusal :=
  .next (State.clocked { s with regs := { s.regs with phase := .on, cnt := 0 } } nopWord)

/-- ON: `DWELL_CYC` cycles, then OFF (R144). -/
def execMuxOn (s : State) : Host.Outcome State Fault Refusal :=
  .next (State.clocked
    { s with regs :=
        if s.params.dwellCyc - 1 ≤ s.regs.cnt then { s.regs with phase := .off, cnt := 0 }
        else { s.regs with cnt := s.regs.cnt + 1 } }
    nopWord)

/-- Leaving a position: the next position's DRIVE, or GATE at the end of the sweep (R145). -/
def Regs.leavePosition (r : Regs) : Regs :=
  if 5 ≤ r.pos.toNat then { r with seq := .gate, pos := 0, phase := .drive, cnt := 0 }
  else { r with pos := r.pos + 1, phase := .drive }

/-- OFF (R145). -/
def execMuxOff (s : State) : Host.Outcome State Fault Refusal :=
  .next (State.clocked { s with regs := s.regs.leavePosition } nopWord)

/-- The reserved phase steps as OFF does (R146). -/
def execMuxReserved (s : State) : Host.Outcome State Fault Refusal :=
  .next (State.clocked { s with regs := s.regs.leavePosition } nopWord)

end Sys2Proof.Machine
end

