-- ==== Sys2Proof/Machine/ResetLine.lean ====
section
/-! DEFINITION. RESET (70_reset_and_hazards.md R260) and the contents before it (10_state.md R36). -/

namespace Sys2Proof.Machine

/-- RESET: every register of R20 takes its reset value, whatever it held (R260). The parameters are fixed at build time
(R35), and the records of outputs are no registers. -/
def execReset (s : State) : Host.Outcome State Fault Refusal := .next { s with regs := Regs.reset }

/-- The registers before the first reset: unspecified, each a free value of its width (R36). -/
def Regs.powerUp (p : Params) : Regs where
  bank := ⟨BitVec.ofNat 4 (Config.powerUp 0), BitVec.ofNat 4 (Config.powerUp 1), BitVec.ofNat 4 (Config.powerUp 2),
    BitVec.ofNat 4 (Config.powerUp 3), BitVec.ofNat 4 (Config.powerUp 4), BitVec.ofNat 4 (Config.powerUp 5)⟩
  seq := SeqState.ofBits (BitVec.ofNat 2 (Config.powerUp 6))
  pos := BitVec.ofNat 3 (Config.powerUp 7)
  phase := Phase.ofBits (BitVec.ofNat 2 (Config.powerUp 8))
  cnt := Config.powerUp 9 % 2 ^ Config.cntW p
  lastSec := truncW p.wMs (Config.powerUp 10)
  hour := ⟨(BitVec.ofNat 1 (Config.powerUp 11)).getLsbD 0, truncW p.wMs (Config.powerUp 12),
    BitVec.ofNat 2 (Config.powerUp 13)⟩
  minute := ⟨(BitVec.ofNat 1 (Config.powerUp 14)).getLsbD 0, truncW p.wMs (Config.powerUp 15),
    BitVec.ofNat 2 (Config.powerUp 16)⟩

/-- The machine at power-up, before its first reset edge (R36, R263). -/
def State.powerUp : State := { State.reset with regs := Regs.powerUp Config.params }

end Sys2Proof.Machine
end

