-- ==== Sys2Proof/Machine/Sequencer.lean ====
section
/-! DEFINITION. The sequencer's operations outside the sweep (43_controller.md R202 to R204): each is one edge of the
clock core (R201). -/

namespace Sys2Proof.Machine

/-- GATE's command: ADV when a second is due, else NOP (R202). -/
def State.gateWord (s : State) : CommandWord := if s.gateDue then advWord else nopWord

/-- POLL_H's command: SETH of the next hour when the poll fires, else NOP (R203). -/
def State.pollHWord (s : State) : CommandWord := if s.fires .hour then s.regs.bank.nextHourWord else nopWord

/-- POLL_M's command: SETM of the next minute when the poll fires, else NOP (R204). -/
def State.pollMWord (s : State) : CommandWord := if s.fires .minute then s.regs.bank.nextMinuteWord else nopWord

/-- The command word the sequencer drives in the cycle that starts in `s` (R100, R201). -/
def State.sequencerWord (s : State) : CommandWord :=
  match s.regs.seq with
  | .gate => s.gateWord
  | .pollH => s.pollHWord
  | .pollM => s.pollMWord
  | .sweep => nopWord

/-- GATE: when a second is due, ADV and `last_sec <- now`; then POLL_H (R202). -/
def execGate (s : State) : Host.Outcome State Fault Refusal :=
  .next (State.clocked
    { s with regs := { s.regs with
        lastSec := if s.gateDue then s.pins.now else s.regs.lastSec
        seq := .pollH } }
    s.gateWord)

/-- POLL_H: POLL on the hour instance; when it fires, SETH of the next hour; then POLL_M (R203). -/
def execPollH (s : State) : Host.Outcome State Fault Refusal :=
  let t := s.pollOf .hour
  .next (State.clocked { t with regs := { t.regs with seq := .pollM } } s.pollHWord)

/-- POLL_M: POLL on the minute instance; when it fires, SETM of the next minute; then SWEEP from position 0 (R204). -/
def execPollM (s : State) : Host.Outcome State Fault Refusal :=
  let t := s.pollOf .minute
  .next (State.clocked { t with regs := { t.regs with seq := .sweep, pos := 0, phase := .drive, cnt := 0 } }
    s.pollMWord)

end Sys2Proof.Machine
end

