-- ==== Sys2Proof/Machine/Dispatch.lean ====
section
/-! DEFINITION. One arm per operation. -/

namespace Sys2Proof.Machine

def exec (i : Instr) (s : State) : Host.Outcome State Fault Refusal :=
  match i with
  -- command words of the bank
  | .nop arg => Sys2Proof.Machine.execNop arg s
  | .adv arg => Sys2Proof.Machine.execAdv arg s
  | .rsvSethH low => Sys2Proof.Machine.execRsvSethH low s
  | .rsvSethA5 low => Sys2Proof.Machine.execRsvSethA5 low s
  | .seth h => Sys2Proof.Machine.execSeth h s
  | .rsvSetm low => Sys2Proof.Machine.execRsvSetm low s
  | .setm m => Sys2Proof.Machine.execSetm m s
  -- reads of the bank
  | .rsvGetd x => Sys2Proof.Machine.execRsvGetd x s
  | .getd p => Sys2Proof.Machine.execGetd p s
  | .geth => Sys2Proof.Machine.execGeth s
  | .getm => Sys2Proof.Machine.execGetm s
  | .rsvRsel101 x => Sys2Proof.Machine.execRsvRsel101 x s
  | .rsvRsel11 x => Sys2Proof.Machine.execRsvRsel11 x s
  -- internal operations of the clock core
  | .gate => Sys2Proof.Machine.execGate s
  | .pollH => Sys2Proof.Machine.execPollH s
  | .pollM => Sys2Proof.Machine.execPollM s
  | .muxDrive => Sys2Proof.Machine.execMuxDrive s
  | .muxOn => Sys2Proof.Machine.execMuxOn s
  | .muxOff => Sys2Proof.Machine.execMuxOff s
  | .muxReserved => Sys2Proof.Machine.execMuxReserved s
  -- one debouncer instance by itself, and reset
  | .poll b => Sys2Proof.Machine.execPoll b s
  | .reset => Sys2Proof.Machine.execReset s

end Sys2Proof.Machine
end

