-- ==== Sys2Proof/Machine/Fetch.lean ====
section
/-! DEFINITION. What takes the place of an instruction fetch: the block fetches nothing (20_memory.md R71). The next
stimulus is taken, its inputs are sampled, and a code selects the operation: `rst` first (R260), then `seq` and
`phase` for the clock core (R88, R89), the command word or the read select for the bank alone (R100). -/

namespace Sys2Proof.Machine

/-- The n-th input vector nobody scripted: free in every input (R9, R213). -/
def freeInputs (n : Nat) : Inputs :=
  ⟨Config.freeRst n, Config.freeNow n, Config.freeBtnHourN n, Config.freeBtnMinN n⟩

/-- The next stimulus: the oldest scripted one, or an edge of the clock core with free inputs. -/
def State.nextStimulus (s : State) : Stimulus :=
  match s.pending with
  | [] => .edge (freeInputs s.draws)
  | st :: _ => st

/-- The state once the next stimulus is taken from the list, or drawn. -/
def State.takeStimulus (s : State) : State :=
  match s.pending with
  | [] => { s with draws := s.draws + 1 }
  | _ :: rest => { s with pending := rest }

/-- An input vector as the ports hold it: `now` is `W_MS` bits wide (R66). -/
def Inputs.sampled (w : Nat) (v : Inputs) : Inputs := { v with now := truncW w v.now }

/-- Both flip-flops of a pin held at a logical level for two edges: 0 is pressed (R171, R172). -/
def levelSync (pressed : Bool) : BitVec 2 := if pressed then 0b00#2 else 0b11#2

/-- The inputs of a stimulus sampled into the state; nothing else of it changes, but a poll of one instance alone finds
that instance's pin held at the level it names (assumption log, entry 4). -/
def State.present (s : State) : Stimulus → State
  | .edge v => { s with pins := v.sampled s.params.wMs }
  | .command rst _ => { s with pins := { s.pins with rst := rst } }
  | .read _ => s
  | .poll b pressed now =>
    { s with
      pins := { s.pins with now := truncW s.params.wMs now }
      regs := s.regs.setDebouncer b { s.regs.debouncer b with sy := levelSync pressed } }

/-- The code that selects the operation of a stimulus, in a state with registers `r`. -/
def Stimulus.code (r : Regs) : Stimulus → Code
  | .edge v => if v.rst then .rst 1#1 else .seqph r.internalCode
  | .command rst w => if rst then .rst 1#1 else .cmd w
  | .read sel => .rsel sel
  | .poll b _ _ => .poll b.code

/-- The state in which the next operation runs: the next stimulus taken and its inputs sampled. -/
def State.fetched (s : State) : State := s.takeStimulus.present s.nextStimulus

/-- The code of the next operation. -/
def State.nextCode (s : State) : Code := s.nextStimulus.code s.regs

/-- The stimulus that presents a word of the opcode table's numbering at the port its length is for: a command word to
the bank alone, a read select, or the level of `rst` at an edge of the clock core (assumption log, entry 10). -/
def tableStimulus (v : Inputs) (nbits w : Nat) : List Stimulus :=
  match tableCode nbits w with
  | some (.cmd c) => [.command false c]
  | some (.rsel r) => [.read r]
  | some (.rst l) => [.edge { v with rst := l.getLsbD 0 }]
  | some (.seqph _) | some (.poll _) | none => []

/-- The state with such a word presented to the very next step. -/
def State.presentWord (s : State) (nbits w : Nat) : State :=
  { s with pending := tableStimulus s.pins nbits w ++ s.pending }

end Sys2Proof.Machine
end

