-- ==== Sys2Proof/Machine/Step.lean ====
section
/-! DEFINITION. One step: the next stimulus is taken, its code decoded, and the operation run (43_controller.md R201 for
an edge of the clock core, 40_digit_bank.md R100 for the bank alone). -/

namespace Sys2Proof.Machine

/-- One step of the machine. -/
def step (s : State) : Host.Outcome State Fault Refusal :=
  match decode s.nextCode with
  | .ok i => exec i s.fetched
  | .error e => .refused (.noOperation e)

/-- The state with a word of the opcode table presented to the very next step. -/
def State.withFetchWord (s : State) (nbits w : Nat) : State := s.presentWord nbits w

end Sys2Proof.Machine
end

