-- ==== Sys2Proof/Machine/Assembler.lean ====
section
/-! DEFINITION. Bank programs: the statements of 30_encoding.md R91 and R92, what a test bench presents for each, and
the reading of a line of text. A command statement is one edge of the bank alone; a read statement takes no cycle. -/

namespace Sys2Proof.Machine

/-- `SETH h`: an operand out of range is an assembly error (R91). -/
def assembleSeth (h : Nat) : Option (List Stimulus) :=
  if h ≤ 23 then some [.command false (BitVec.ofNat 8 (0x80 + h))] else none

/-- `SETM m` (R91). -/
def assembleSetm (m : Nat) : Option (List Stimulus) :=
  if m ≤ 59 then some [.command false (BitVec.ofNat 8 (0xC0 + m))] else none

/-- What one statement presents, in order; none for an operand out of range (R91, R92). DESIGN CHOICE: `GETD 6` and
`GETD 7` are assembly errors, as R91 has it, although program P2 of 95_test_vectors.md writes `GETD 6` for the reserved
read (assumption log, entry 22). -/
def assembleStatement : Statement → Option (List Stimulus)
  | .nop => some [.command false nopWord]
  | .adv => some [.command false advWord]
  | .seth h => assembleSeth h
  | .setm m => assembleSetm m
  | .getd p => if p ≤ 5 then some [.read (BitVec.ofNat 4 p)] else none
  | .geth => some [.read 0b1000#4]
  | .getm => some [.read 0b1001#4]
  | .word w => if w ≤ 255 then some [.command false (BitVec.ofNat 8 w)] else none
  | .advn n => some (List.replicate n (.command false advWord))
  | .wait n => some (List.replicate n (.command false nopWord))
  | .sett hh mm =>
    match assembleSeth hh, assembleSetm mm with
    | some a, some b => some (a ++ b)
    | _, _ => none

/-- A bank program: its statements in order, or none if one is an assembly error (R91). -/
def assemble : List Statement → Option (List Stimulus)
  | [] => some []
  | st :: rest =>
    match assembleStatement st, assemble rest with
    | some a, some b => some (a ++ b)
    | _, _ => none

/-- The state with a bank program presented next (R91, R100). -/
def State.withProgram (s : State) (prog : List Stimulus) : State := { s with pending := prog ++ s.pending }

/-- Text after `;` is a comment (R91). -/
def uncomment (line : List Char) : List Char := line.takeWhile (fun c => c != ';')

/-- A line's words, parted by blanks. -/
def tokens (line : List Char) : List (List Char) :=
  let r := line.foldr
    (fun c acc => if c == ' ' || c == '\t' then ([], if acc.1.isEmpty then acc.2 else acc.1 :: acc.2)
      else (c :: acc.1, acc.2))
    (([] : List Char), ([] : List (List Char)))
  if r.1.isEmpty then r.2 else r.1 :: r.2

/-- The value of a digit of base 16. -/
def digitValue (c : Char) : Option Nat :=
  let n := c.toNat
  if 48 ≤ n ∧ n ≤ 57 then some (n - 48)
  else if 65 ≤ n ∧ n ≤ 70 then some (n - 55)
  else if 97 ≤ n ∧ n ≤ 102 then some (n - 87)
  else none

/-- The digits of a number in a base, after the value of those before them. -/
def digitsFrom (base : Nat) : Nat → List Char → Option Nat
  | acc, [] => some acc
  | acc, c :: rest =>
    match digitValue c with
    | some d => if d < base then digitsFrom base (base * acc + d) rest else none
    | none => none

/-- A number: decimal, or hexadecimal after `0x` (R91). -/
def parseNumber : List Char → Option Nat
  | [] => none
  | '0' :: 'x' :: c :: rest => digitsFrom 16 0 (c :: rest)
  | c :: rest => digitsFrom 10 0 (c :: rest)

/-- `hh:mm` (R92). -/
def parseTime (t : List Char) : Option Statement :=
  match parseNumber (t.takeWhile (fun c => c != ':')), (t.dropWhile (fun c => c != ':')) with
  | some hh, ':' :: mm => (parseNumber mm).map (Statement.sett hh)
  | _, _ => none

/-- The statement a line's words spell (R91, R92). -/
def parseTokens : List (List Char) → Option Statement
  | [op] =>
    if op = ['N', 'O', 'P'] then some .nop
    else if op = ['A', 'D', 'V'] then some .adv
    else if op = ['G', 'E', 'T', 'H'] then some .geth
    else if op = ['G', 'E', 'T', 'M'] then some .getm
    else none
  | [op, x] =>
    if op = ['S', 'E', 'T', 'H'] then (parseNumber x).map .seth
    else if op = ['S', 'E', 'T', 'M'] then (parseNumber x).map .setm
    else if op = ['G', 'E', 'T', 'D'] then (parseNumber x).map .getd
    else if op = ['.', 'w', 'o', 'r', 'd'] then (parseNumber x).map .word
    else if op = ['A', 'D', 'V', 'N'] then (parseNumber x).map .advn
    else if op = ['W', 'A', 'I', 'T'] then (parseNumber x).map .wait
    else if op = ['S', 'E', 'T', 'T'] then parseTime x
    else none
  | _ => none

/-- The statements of a program's lines, blank lines left out; none if a line spells no statement. -/
def parseProgram : List (List Char) → Option (List Statement)
  | [] => some []
  | line :: rest =>
    match tokens (uncomment line) with
    | [] => parseProgram rest
    | ws =>
      match parseTokens ws, parseProgram rest with
      | some st, some more => some (st :: more)
      | _, _ => none

end Sys2Proof.Machine
end

