-- ==== Sys2Proof/Safety.lean ====
section
/-! DEFINITION. The terms claims are made in: invariant states (10_state.md R22, R23, R38), the time of day (R13,
R105), the enable hazard (41_display_mux.md R147), edges and runs of the clock core (00_scope.md R9). -/

namespace Sys2Proof.Machine

/-- An invariant state of the bank: the ranges of R22 and the pairs of R23. -/
abbrev Bank.Inv (b : Bank) : Prop :=
  b.A.toNat ≤ 2 ∧ b.B.toNat ≤ 9 ∧ b.C.toNat ≤ 5 ∧ b.D.toNat ≤ 9 ∧ b.E.toNat ≤ 5 ∧ b.F.toNat ≤ 9 ∧
  10 * b.A.toNat + b.B.toNat ≤ 23

/-- HH (R13). -/
def Bank.hh (b : Bank) : Nat := 10 * b.A.toNat + b.B.toNat

/-- MM (R13). -/
def Bank.mm (b : Bank) : Nat := 10 * b.C.toNat + b.D.toNat

/-- SS (R13). -/
def Bank.ss (b : Bank) : Nat := 10 * b.E.toNat + b.F.toNat

/-- The second of the day, `3600*h + 60*m + s` (R115). -/
def Bank.secondOfDay (b : Bank) : Nat := 3600 * b.hh + 60 * b.mm + b.ss

/-- The operation `seq` and `phase` select (30_encoding.md R88, R89). -/
def Regs.operation (r : Regs) : Instr :=
  match r.seq, r.phase with
  | .gate, _ => .gate
  | .pollH, _ => .pollH
  | .pollM, _ => .pollM
  | .sweep, .drive => .muxDrive
  | .sweep, .on => .muxOn
  | .sweep, .off => .muxOff
  | .sweep, .reserved => .muxReserved

/-- The operation of a stimulus: RESET whenever `rst` is 1 at an edge (R260), else what `seq` and `phase`, the command
word, the read select or the instance name. -/
def Stimulus.operation (r : Regs) : Stimulus → Instr
  | .edge v => if v.rst then .reset else r.operation
  | .command rst w => if rst then .reset else decodeCommand w
  | .read sel => decodeRead sel
  | .poll b _ _ => .poll b

/-- The multiplexer at rest: `pos = 0`, `phase = DRIVE`, `cnt = 0` (R38). -/
abbrev Regs.Idle (r : Regs) : Prop := r.pos = 0 ∧ r.phase = .drive ∧ r.cnt = 0

/-- The invariant of a run: the parameters meet R5 and R6; the bank is in an invariant state (R23); `pos` is a position,
`phase` is not the reserved one, `cnt` counts an ON cycle (R28, R29, R30); outside the sweep the multiplexer is at rest
(R38); every value of width `W_MS` is below `2^W_MS` (R31, R32, R66). -/
abbrev State.Inv (s : State) : Prop :=
  s.params.Wf ∧ s.regs.bank.Inv ∧
  s.regs.pos.toNat ≤ 5 ∧ s.regs.phase ≠ .reserved ∧ s.regs.cnt < s.params.dwellCyc ∧
  (s.regs.phase ≠ .on → s.regs.cnt = 0) ∧ (s.regs.seq ≠ .sweep → s.regs.Idle) ∧
  s.regs.lastSec < 2 ^ s.params.wMs ∧ s.regs.hour.tf < 2 ^ s.params.wMs ∧ s.regs.minute.tf < 2 ^ s.params.wMs ∧
  s.pins.now < 2 ^ s.params.wMs

/-- At most one enable line is asserted: the enables are all low, or one of the six is high (R147). -/
abbrev OneEnable (en : BitVec 6) : Prop := en = 0#6 ∨ ∃ p : Fin 6, en = 1#6 <<< p.val

/-- The next step from `s` is an edge of the whole clock core that samples the inputs `v`. -/
abbrev State.EdgeNext (s : State) (v : Inputs) : Prop := s.nextStimulus = .edge v

/-- A run of the clock core: from `s` to `t` over edges that sample the given inputs, one vector per edge (R9). -/
def EdgeRun : List Inputs → State → State → Prop
  | [], s, t => s = t
  | v :: vs, s, t => s.EdgeNext v ∧ ∃ u, step s = .next u ∧ EdgeRun vs u t

/-- A debouncer whose timestamp is moved by `c` milliseconds, modulo `2^w`. -/
def Debouncer.shiftTime (w c : Nat) (d : Debouncer) : Debouncer := { d with tf := (d.tf + c) % 2 ^ w }

/-- The same state on a counter that reads `c` milliseconds more: the sampled `now` and the three timestamps move
together, modulo `2^W_MS` (R66, R68). -/
def State.shiftTime (c : Nat) (s : State) : State :=
  { s with
    pins := { s.pins with now := (s.pins.now + c) % 2 ^ s.params.wMs }
    regs :=
      { s.regs with
        lastSec := (s.regs.lastSec + c) % 2 ^ s.params.wMs
        hour := s.regs.hour.shiftTime s.params.wMs c
        minute := s.regs.minute.shiftTime s.params.wMs c } }

/-- No edge of a list asserts `rst`. -/
abbrev NoReset (vs : List Inputs) : Prop := ∀ v ∈ vs, v.rst = false

end Sys2Proof.Machine
end

