-- ==== Sys2Proof/Certificates/Slice0/Obligations.lean ====
section
/-! DEFINITION. The statements for the provers. Each docstring names the rule of spec/ it formalises, or says what it is
derived from. A run of the clock core is over edges that the next stimuli give, scripted or free. -/

open Sys2Proof Sys2Proof.Machine

/-! ### Encoding -/

/-- 30_encoding.md R80 to R89: no bit of an encoding is dropped, in any family. A poll of one instance alone has the
model's own code (assumption log, entry 9). -/
def Obligations.DecodeOfEncodeIsTheInstruction : Prop :=
  ∀ i : Instr, i.wellFormed = true → decode (encode i) = .ok i

/-- R93: the decoder is total and gives each word the row the table gives it, the reserved rows first. -/
def Obligations.EveryWordDecodesToItsTableRow : Prop :=
  (∀ w : CommandWord, decode (.cmd w) = .ok (decodeCommand w) ∧ (decodeCommand w).wellFormed = true ∧
      encode (decodeCommand w) = .cmd w ∧ tableRow (.cmd w) = some (decodeCommand w).row) ∧
  (∀ w : ReadSelect, decode (.rsel w) = .ok (decodeRead w) ∧ (decodeRead w).wellFormed = true ∧
      encode (decodeRead w) = .rsel w ∧ tableRow (.rsel w) = some (decodeRead w).row) ∧
  (∀ (w : BitVec 4) (r : Row), tableRow (.seqph w) = some r →
      decode (.seqph w) = .ok (decodeInternal w) ∧ (decodeInternal w).row = r)

/-- Words written out from the tables of R81 to R89, the vectors V24 to V54 and R260, one or two per family. -/
def Obligations.WordsOfTheTablesDecode : Prop :=
  decode (.cmd 0x3F) = .ok (.nop 0x3F) ∧ decode (.cmd 0x40) = .ok (.adv 0) ∧
  decode (.cmd 0x97) = .ok (.seth 23) ∧ decode (.cmd 0x98) = .ok (.rsvSethH 0) ∧
  decode (.cmd 0xB7) = .ok (.rsvSethA5 23) ∧ decode (.cmd 0xFB) = .ok (.setm 59) ∧
  decode (.cmd 0xFC) = .ok (.rsvSetm 0) ∧ decode (.rsel 0b0101) = .ok (.getd 5) ∧
  decode (.rsel 0b0110) = .ok (.rsvGetd 0) ∧ decode (.rsel 0b1000) = .ok .geth ∧
  decode (.rsel 0b1001) = .ok .getm ∧ decode (.rsel 0b1011) = .ok (.rsvRsel101 1) ∧
  decode (.rsel 0b1110) = .ok (.rsvRsel11 2) ∧ decode (.seqph 0b0000) = .ok .gate ∧
  decode (.seqph 0b0100) = .ok .pollH ∧ decode (.seqph 0b1000) = .ok .pollM ∧
  decode (.seqph 0b1100) = .ok .muxDrive ∧ decode (.seqph 0b1101) = .ok .muxOn ∧
  decode (.seqph 0b1110) = .ok .muxOff ∧ decode (.seqph 0b1111) = .ok .muxReserved ∧ decode (.rst 1) = .ok .reset

/-- R85: no command word is illegal; the reserved operands are ignored, `arg` of NOP and ADV is ignored, and the
sequencer never issues a reserved operand. -/
def Obligations.ReservedCommandWordsAreIgnored : Prop :=
  ∀ (w : CommandWord) (s : State),
    (∃ t, exec (decodeCommand w) s = .next t) ∧
    (0x98 ≤ w.toNat ∧ w.toNat ≤ 0xBF ∨ 0xFC ≤ w.toNat → exec (decodeCommand w) s = .next s) ∧
    (w.toNat ≤ 0x3F → exec (decodeCommand w) s = exec (.nop 0) s) ∧
    (0x40 ≤ w.toNat ∧ w.toNat ≤ 0x7F → exec (decodeCommand w) s = exec (.adv 0) s) ∧
    (s.sequencerWord.toNat = 0x00 ∨ s.sequencerWord.toNat = 0x40 ∨
      0x80 ≤ s.sequencerWord.toNat ∧ s.sequencerWord.toNat ≤ 0x97 ∨
      0xC0 ≤ s.sequencerWord.toNat ∧ s.sequencerWord.toNat ≤ 0xFB)

/-- R92: the pseudo-instructions expand statically. -/
def Obligations.PseudoInstructionsExpand : Prop :=
  (∀ n, assemble [.advn n] = assemble (List.replicate n .adv)) ∧
  (∀ n, assemble [.wait n] = assemble (List.replicate n .nop)) ∧
  (∀ hh mm, assemble [.sett hh mm] = assemble [.seth hh, .setm mm])

/-- From the table of R91: what each statement presents, and that an operand out of range is an assembly error. That this
holds of `GETD 6` too, which program P2 writes, is the model's choice (assumption log, entry 22). -/
def Obligations.StatementsAssembleToTheirWords : Prop :=
  assembleStatement .nop = some [.command false 0x00] ∧ assembleStatement .adv = some [.command false 0x40] ∧
  (∀ h, assembleStatement (.seth h) = if h ≤ 23 then some [.command false (BitVec.ofNat 8 (0x80 + h))] else none) ∧
  (∀ m, assembleStatement (.setm m) = if m ≤ 59 then some [.command false (BitVec.ofNat 8 (0xC0 + m))] else none) ∧
  (∀ p, assembleStatement (.getd p) = if p ≤ 5 then some [.read (BitVec.ofNat 4 p)] else none) ∧
  assembleStatement .geth = some [.read 0b1000] ∧ assembleStatement .getm = some [.read 0b1001] ∧
  (∀ w, assembleStatement (.word w) = if w ≤ 255 then some [.command false (BitVec.ofNat 8 w)] else none)

/-! ### The step -/

/-- From R8, R91, R100, R201, R260: a step takes the next stimulus, samples its inputs, and runs the operation its code
decodes to; `rst` comes before `seq` and `phase`, and before a command word. With nothing scripted the stimulus is an
edge with free inputs (assumption log, entry 3); a poll of one instance alone finds its pin held at the level it names
(entry 4). -/
def Obligations.StepRunsTheDecodedOperation : Prop :=
  (∀ (s : State) (i : Instr), decode s.nextCode = .ok i → step s = exec i s.fetched) ∧
  (∀ (s : State) (v : Inputs) (rest : List Stimulus), s.pending = .edge v :: rest →
    s.nextCode = (if v.rst then .rst 1 else .seqph (s.regs.seq.bits ++ s.regs.phase.bits)) ∧
    s.fetched = { s with pending := rest, pins := { v with now := v.now % 2 ^ s.params.wMs } }) ∧
  (∀ (s : State) (r : Bool) (w : CommandWord) (rest : List Stimulus), s.pending = .command r w :: rest →
    s.nextCode = (if r then .rst 1 else .cmd w) ∧
    s.fetched = { s with pending := rest, pins := { s.pins with rst := r } }) ∧
  (∀ (s : State) (sel : ReadSelect) (rest : List Stimulus), s.pending = .read sel :: rest →
    s.nextCode = .rsel sel ∧ s.fetched = { s with pending := rest }) ∧
  (∀ (s : State) (b : Button) (p : Bool) (n : Nat) (rest : List Stimulus), s.pending = .poll b p n :: rest →
    s.nextCode = .poll b.code ∧
    s.fetched = { s with
      pending := rest
      pins := { s.pins with now := n % 2 ^ s.params.wMs }
      regs := s.regs.setDebouncer b { s.regs.debouncer b with sy := if p then 0b00 else 0b11 } }) ∧
  (∀ s : State, s.pending = [] →
    s.nextCode = (if Config.freeRst s.draws then .rst 1 else .seqph (s.regs.seq.bits ++ s.regs.phase.bits)) ∧
    s.fetched = { s with
      draws := s.draws + 1
      pins := ⟨Config.freeRst s.draws, Config.freeNow s.draws % 2 ^ s.params.wMs, Config.freeBtnHourN s.draws,
        Config.freeBtnMinN s.draws⟩ })

/-- R230: no operation raises an exception, traps or halts: every operation and every step answers a next state. -/
def Obligations.NoOperationFaultsOrHalts : Prop :=
  (∀ (i : Instr) (s : State), ∃ t, exec i s = .next t) ∧ (∀ s : State, ∃ t, step s = .next t)

/-! ### The Digit Register Bank -/

/-- R101, R107, R109: NOP and the reserved set words change no register; nor does SETH or SETM with an operand out of
range. -/
def Obligations.NopAndReservedSetsChangeNothing : Prop :=
  ∀ s : State,
    (∀ arg : BitVec 6, decode (.cmd (0b00#2 ++ arg)) = .ok (.nop arg) ∧ exec (.nop arg) s = .next s) ∧
    (∀ low : BitVec 3, decode (.cmd (0b10011#5 ++ low)) = .ok (.rsvSethH low) ∧ exec (.rsvSethH low) s = .next s) ∧
    (∀ low : BitVec 5, decode (.cmd (0b101#3 ++ low)) = .ok (.rsvSethA5 low) ∧ exec (.rsvSethA5 low) s = .next s) ∧
    (∀ low : BitVec 2, decode (.cmd (0b111111#6 ++ low)) = .ok (.rsvSetm low) ∧ exec (.rsvSetm low) s = .next s) ∧
    (∀ h : BitVec 5, 24 ≤ h.toNat → exec (.seth h) s = .next s) ∧
    (∀ m : BitVec 6, 60 ≤ m.toNat → exec (.setm m) s = .next s)

/-- R102, R104: ADV on every value of the six digits, stage by stage; nothing but the digits changes. -/
def Obligations.AdvRipplesThroughTheDigits : Prop :=
  ∀ (arg : BitVec 6) (s : State),
    decode (.cmd (0b01#2 ++ arg)) = .ok (.adv arg) ∧
    ∃ a b c d e f : Digit,
      exec (.adv arg) s = .next { s with regs := { s.regs with bank := ⟨a, b, c, d, e, f⟩ } } ∧
      (let x := s.regs.bank
       let c1 := x.F.toNat = 9
       let c2 := c1 ∧ x.E.toNat = 5
       let c3 := c2 ∧ x.D.toNat = 9
       let c4 := c3 ∧ x.C.toNat = 5
       f.toNat = (if x.F.toNat = 9 then 0 else (x.F.toNat + 1) % 16) ∧
       e.toNat = (if c1 then (if x.E.toNat = 5 then 0 else (x.E.toNat + 1) % 16) else x.E.toNat) ∧
       d.toNat = (if c2 then (if x.D.toNat = 9 then 0 else (x.D.toNat + 1) % 16) else x.D.toNat) ∧
       c.toNat = (if c3 then (if x.C.toNat = 5 then 0 else (x.C.toNat + 1) % 16) else x.C.toNat) ∧
       b.toNat = (if c4 then
          (if x.A.toNat = 2 ∧ x.B.toNat = 3 then 0 else if x.B.toNat = 9 then 0 else (x.B.toNat + 1) % 16)
          else x.B.toNat) ∧
       a.toNat = (if c4 then
          (if x.A.toNat = 2 ∧ x.B.toNat = 3 then 0 else if x.B.toNat = 9 then (x.A.toNat + 1) % 16 else x.A.toNat)
          else x.A.toNat))

/-- R105: on every invariant state ADV is the operation on whole numbers. -/
def Obligations.AdvIsTheHoursModulo24Operation : Prop :=
  ∀ (arg : BitVec 6) (s : State), s.regs.bank.Inv →
    ∃ a b c d e f : Digit,
      exec (.adv arg) s = .next { s with regs := { s.regs with bank := ⟨a, b, c, d, e, f⟩ } } ∧
      (let x := s.regs.bank
       let sec := 10 * x.E.toNat + x.F.toNat
       let m := 10 * x.C.toNat + x.D.toNat
       let h := 10 * x.A.toNat + x.B.toNat
       let s1 := (sec + 1) % 60
       let m1 := if s1 = 0 then (m + 1) % 60 else m
       let h1 := if s1 = 0 ∧ m1 = 0 then (h + 1) % 24 else h
       a.toNat = h1 / 10 ∧ b.toNat = h1 % 10 ∧ c.toNat = m1 / 10 ∧ d.toNat = m1 % 10 ∧
       e.toNat = s1 / 10 ∧ f.toNat = s1 % 10)

/-- R115: from any invariant state, presenting the ADV word n times adds n seconds modulo one day, so 86400 and no
smaller positive number of ADVs gives the state back, and every invariant state is reached from every other. -/
def Obligations.AdvHasPeriodOneDay : Prop :=
  (∀ (n : Nat) (s : State), s.regs.bank.Inv →
    ∃ t : State,
      Host.Core.run Sys2Proof.core n (s.withProgram (List.replicate n (.command false 0x40))) = .next t ∧
      t.regs.bank.Inv ∧ t.regs.bank.secondOfDay = (s.regs.bank.secondOfDay + n) % 86400 ∧
      (t.regs.bank = s.regs.bank ↔ n % 86400 = 0)) ∧
  (∀ (b : Bank) (s : State), b.Inv → s.regs.bank.Inv →
    ∃ (n : Nat) (t : State), n < 86400 ∧
      Host.Core.run Sys2Proof.core n (s.withProgram (List.replicate n (.command false 0x40))) = .next t ∧
      t.regs.bank = b)

/-- R106: SETH splits `h` in 0..23 into the two hours digits and changes nothing else; another operand is ignored. -/
def Obligations.SethSetsTheHoursDigits : Prop :=
  ∀ (h : BitVec 5) (s : State),
    (h.toNat ≤ 23 → decode (.cmd (BitVec.ofNat 8 (0x80 + h.toNat))) = .ok (.seth h) ∧
      ∃ a b : Digit, a.toNat = h.toNat / 10 ∧ b.toNat = h.toNat % 10 ∧
        exec (.seth h) s = .next { s with regs := { s.regs with bank := { s.regs.bank with A := a, B := b } } }) ∧
    (23 < h.toNat → exec (.seth h) s = .next s) ∧
    (∀ low : BitVec 5, exec (decodeCommand (0b101#3 ++ low)) s = .next s)

/-- R108: SETM splits `m` in 0..59 into the two minutes digits and changes nothing else; another operand is ignored. -/
def Obligations.SetmSetsTheMinutesDigits : Prop :=
  ∀ (m : BitVec 6) (s : State),
    (m.toNat ≤ 59 → decode (.cmd (BitVec.ofNat 8 (0xC0 + m.toNat))) = .ok (.setm m) ∧
      ∃ c d : Digit, c.toNat = m.toNat / 10 ∧ d.toNat = m.toNat % 10 ∧
        exec (.setm m) s = .next { s with regs := { s.regs with bank := { s.regs.bank with C := c, D := d } } }) ∧
    (59 < m.toNat → exec (.setm m) s = .next s)

/-- R112, R113: GETD reads the digit of its position, a reserved select reads 0; a read writes no register. That the value
read is kept in `rdata` is the model's choice (assumption log, entry 5). -/
def Obligations.DigitReadsReturnTheDigit : Prop :=
  ∀ s : State,
    (exec (.getd 0) s = .next { s with rdata := s.regs.bank.A.setWidth 6 } ∧
     exec (.getd 1) s = .next { s with rdata := s.regs.bank.B.setWidth 6 } ∧
     exec (.getd 2) s = .next { s with rdata := s.regs.bank.C.setWidth 6 } ∧
     exec (.getd 3) s = .next { s with rdata := s.regs.bank.D.setWidth 6 } ∧
     exec (.getd 4) s = .next { s with rdata := s.regs.bank.E.setWidth 6 } ∧
     exec (.getd 5) s = .next { s with rdata := s.regs.bank.F.setWidth 6 }) ∧
    (∀ p : Position, p.toNat ≤ 5 → decode (.rsel (0#1 ++ p)) = .ok (.getd p)) ∧
    (∀ p : Position, 6 ≤ p.toNat → exec (.getd p) s = .next { s with rdata := 0 }) ∧
    (∀ x : BitVec 1, decode (.rsel (0b011#3 ++ x)) = .ok (.rsvGetd x) ∧
      exec (.rsvGetd x) s = .next { s with rdata := 0 }) ∧
    (∀ x : BitVec 1, decode (.rsel (0b101#3 ++ x)) = .ok (.rsvRsel101 x) ∧
      exec (.rsvRsel101 x) s = .next { s with rdata := 0 }) ∧
    (∀ x : BitVec 2, decode (.rsel (0b11#2 ++ x)) = .ok (.rsvRsel11 x) ∧
      exec (.rsvRsel11 x) s = .next { s with rdata := 0 })

/-- R110, R111: GETH and GETM read a pair in binary, truncated to 5 and 6 bits; on an invariant state the truncation has
no effect. That the value read is kept in `rdata` is the model's choice (assumption log, entry 5). -/
def Obligations.PairReadsReturnTheNumber : Prop :=
  ∀ s : State,
    decode (.rsel 0b1000) = .ok .geth ∧ decode (.rsel 0b1001) = .ok .getm ∧
    (∃ v : ReadData, v.toNat = (10 * s.regs.bank.A.toNat + s.regs.bank.B.toNat) % 32 ∧
      exec .geth s = .next { s with rdata := v } ∧ (s.regs.bank.Inv → v.toNat = s.regs.bank.hh ∧ v.toNat ≤ 23)) ∧
    (∃ v : ReadData, v.toNat = (10 * s.regs.bank.C.toNat + s.regs.bank.D.toNat) % 64 ∧
      exec .getm s = .next { s with rdata := v } ∧ (s.regs.bank.Inv → v.toNat = s.regs.bank.mm ∧ v.toNat ≤ 59))

/-- R114: every operation, every command word and every step maps an invariant bank to one; reset gives `00:00:00`. -/
def Obligations.BankInvariantIsPreserved : Prop :=
  (∀ (i : Instr) (s t : State), s.regs.bank.Inv → exec i s = .next t → t.regs.bank.Inv) ∧
  (∀ s t : State, s.regs.bank.Inv → step s = .next t → t.regs.bank.Inv) ∧
  (∀ s : State, ∃ t, exec .reset s = .next t ∧ t.regs.bank = ⟨0, 0, 0, 0, 0, 0⟩) ∧
  (∀ b : Bank, b.Inv → b.A.toNat = 2 → b.B.toNat ≤ 3)

/-- R116: a set writes only its pair, whatever the rest holds, and the get after it returns the operand. -/
def Obligations.SetThenGetReturnsTheOperand : Prop :=
  ∀ s : State,
    (∀ h : BitVec 5, h.toNat ≤ 23 → ∃ t u, exec (.seth h) s = .next t ∧ exec .geth t = .next u ∧
      u.rdata.toNat = h.toNat ∧ t.regs.bank = { s.regs.bank with A := t.regs.bank.A, B := t.regs.bank.B }) ∧
    (∀ m : BitVec 6, m.toNat ≤ 59 → ∃ t u, exec (.setm m) s = .next t ∧ exec .getm t = .next u ∧
      u.rdata.toNat = m.toNat ∧ t.regs.bank = { s.regs.bank with C := t.regs.bank.C, D := t.regs.bank.D })

/-- R24: the digits change only by ADV, SETH, SETM (SETH writes A and B, SETM C and D) and reset; inside the clock core
those come only from GATE, POLL_H and POLL_M. -/
def Obligations.OnlyAdvSetsAndResetWriteDigits : Prop :=
  ∀ (i : Instr) (s t : State), exec i s = .next t → t.regs.bank ≠ s.regs.bank →
    (i = .reset ∨ (∃ arg, i = .adv arg) ∨
      (∃ h, i = .seth h ∧ t.regs.bank = { s.regs.bank with A := t.regs.bank.A, B := t.regs.bank.B }) ∨
      (∃ m, i = .setm m ∧ t.regs.bank = { s.regs.bank with C := t.regs.bank.C, D := t.regs.bank.D }) ∨
      (i = .gate ∧ ∃ u, exec (.adv 0) s = .next u ∧ t.regs.bank = u.regs.bank) ∨
      (i = .pollH ∧ ∃ h u, exec (.seth h) s = .next u ∧ t.regs.bank = u.regs.bank) ∨
      (i = .pollM ∧ ∃ m u, exec (.setm m) s = .next u ∧ t.regs.bank = u.regs.bank))

/-! ### Elapsed time and polls -/

/-- R68: `sub_W` measures the elapsed milliseconds modulo `2^W_MS`, so exactly when fewer than `2^W_MS` have passed; and
no operation compares absolute values: on a counter that reads `c` more, every operation but reset does the same. -/
def Obligations.ElapsedTimeIsModularAndRelative : Prop :=
  (∀ w t n : Nat, t < 2 ^ w → subW w ((t + n) % 2 ^ w) t = n % 2 ^ w ∧
    (subW w ((t + n) % 2 ^ w) t = n ↔ n < 2 ^ w)) ∧
  (∀ (c : Nat) (i : Instr) (s t : State), i ≠ .reset → exec i s = .next t →
    exec i (s.shiftTime c) = .next (t.shiftTime c))

/-- R173, R175: what a poll of an instance returns and stores, in every state; POLL_H performs it on the hour instance and
POLL_M on the minute instance. That the result is kept in `fire` is the model's choice (assumption log, entry 5). -/
def Obligations.PollFiresAndStores : Prop :=
  ∀ (b : Button) (s : State),
    ∃ fire pressed : Bool,
      pressed = !(s.regs.debouncer b).sy.getLsbD 1 ∧
      (fire = true ↔ pressed = true ∧ (s.regs.debouncer b).lvl = false ∧
        200 < ((s.pins.now : Int) - (s.regs.debouncer b).tf) % ((2 ^ s.params.wMs : Nat) : Int)) ∧
      exec (.poll b) s = .next { s with
        fire := fire
        regs := s.regs.setDebouncer b { s.regs.debouncer b with
          lvl := pressed
          tf := if fire then s.pins.now else (s.regs.debouncer b).tf } } ∧
      ∃ (i : Instr) (t : State), i = (match b with | .hour => Instr.pollH | .minute => Instr.pollM) ∧
        decode (.seqph (match b with | .hour => 0b0100#4 | .minute => 0b1000#4)) = .ok i ∧
        exec i s = .next t ∧ t.fire = fire ∧ (t.regs.debouncer b).lvl = pressed ∧
        (t.regs.debouncer b).tf = if fire then s.pins.now else (s.regs.debouncer b).tf

/-- R177: a poll that finds the button released returns 0 and stores the level 0; one that finds it pressed stores the
level 1, and while the level is 1 no poll fires; so of two polls of a held press the second never fires. -/
def Obligations.ReleaseAndHeldPressNeverFire : Prop :=
  (∀ (b : Button) (s : State), (s.regs.debouncer b).pressed = false →
    ∃ t, exec (.poll b) s = .next t ∧ t.fire = false ∧ (t.regs.debouncer b).lvl = false) ∧
  (∀ (b : Button) (s : State), (s.regs.debouncer b).pressed = true →
    ∃ t, exec (.poll b) s = .next t ∧ (t.regs.debouncer b).lvl = true) ∧
  (∀ (b : Button) (s : State), (s.regs.debouncer b).lvl = true → ∃ t, exec (.poll b) s = .next t ∧ t.fire = false) ∧
  (∀ (b : Button) (s t u : State) (n m : Nat) (rest : List Stimulus),
    s.pending = .poll b true n :: .poll b true m :: rest → step s = .next t → step t = .next u → u.fire = false)

/-- R176, R178: after a press that fires at `t`, a release and a second press first seen at `t + d`, the second fires
exactly when `d`, measured modulo `2^W_MS`, exceeds 200. -/
def Obligations.SecondPressFiresAfterTheInterval : Prop :=
  ∀ (b : Button) (s s1 s2 s3 : State) (t x d : Nat) (rest : List Stimulus),
    s.pending = .poll b true t :: .poll b false x :: .poll b true (t + d) :: rest →
    step s = .next s1 → s1.fire = true → step s1 = .next s2 → step s2 = .next s3 →
    s2.fire = false ∧ (s3.fire = true ↔ 200 < d % 2 ^ s.params.wMs) ∧
    (d < 2 ^ s.params.wMs → (s3.fire = true ↔ 200 < d))

/-- R179: reset sets the timestamp to 0, and while it is 0 no poll fires whose `now` lies in 0..200. -/
def Obligations.NoPressFiresInTheFirst200Ms : Prop :=
  (∀ s : State, ∃ t, exec .reset s = .next t ∧ ∀ b, (t.regs.debouncer b).tf = 0) ∧
  (∀ (b : Button) (s : State), s.params.Wf → (s.regs.debouncer b).tf = 0 → s.pins.now ≤ 200 →
    ∃ t, exec (.poll b) s = .next t ∧ t.fire = false ∧ (t.regs.debouncer b).tf = 0)

/-- R171, R172: on every edge of the clock core without reset both synchronisers shift, whatever `seq` is, so `pressed`
is the inverse of the pin's level two edges before; reset sets both to `0b11`. -/
def Obligations.PressedIsThePinTwoEdgesBefore : Prop :=
  (∀ (v : Inputs) (s t : State), v.rst = false → EdgeRun [v] s t →
    t.regs.hour.sy = s.regs.hour.sy.extractLsb' 0 1 ++ BitVec.ofBool v.btnHourN ∧
    t.regs.minute.sy = s.regs.minute.sy.extractLsb' 0 1 ++ BitVec.ofBool v.btnMinN) ∧
  (∀ (v w : Inputs) (s t : State), v.rst = false → w.rst = false → EdgeRun [v, w] s t →
    t.regs.hour.pressed = !v.btnHourN ∧ t.regs.minute.pressed = !v.btnMinN) ∧
  (∀ d : Debouncer, d.pressed = !d.sy.getLsbD 1) ∧
  (∀ s : State, ∃ t, exec .reset s = .next t ∧ t.regs.hour.sy = 0b11 ∧ t.regs.minute.sy = 0b11)

/-- R174: an operation that does not poll an instance leaves its level and timestamp, and an edge of the clock core that
does not poll it shifts its synchroniser. -/
def Obligations.BetweenPollsTheLevelAndTimestampStay : Prop :=
  ∀ (i : Instr) (s t : State), exec i s = .next t → i ≠ .reset →
    (i ≠ .pollH → i ≠ .poll .hour → t.regs.hour.lvl = s.regs.hour.lvl ∧ t.regs.hour.tf = s.regs.hour.tf) ∧
    (i ≠ .pollM → i ≠ .poll .minute → t.regs.minute.lvl = s.regs.minute.lvl ∧ t.regs.minute.tf = s.regs.minute.tf) ∧
    (i = .gate ∨ i = .pollH ∨ i = .pollM ∨ i = .muxDrive ∨ i = .muxOn ∨ i = .muxOff ∨ i = .muxReserved →
      t.regs.hour.sy = s.regs.hour.sy.extractLsb' 0 1 ++ BitVec.ofBool s.pins.btnHourN ∧
      t.regs.minute.sy = s.regs.minute.sy.extractLsb' 0 1 ++ BitVec.ofBool s.pins.btnMinN)

/-! ### The sequencer -/

/-- R202: GATE in every state. When at least 1000 ms have elapsed since `last_sec` the digits become those ADV gives and
`last_sec` becomes the sampled `now`; either way POLL_H is next. Beside the synchronisers nothing else changes. -/
def Obligations.GateAdvancesWhenASecondIsDue : Prop :=
  ∀ s : State,
    decode (.seqph 0b0000) = .ok .gate ∧
    ∃ (due : Bool) (b : Bank) (sh sm : BitVec 2),
      (due = true ↔
        1000 ≤ ((s.pins.now : Int) - s.regs.lastSec) % ((2 ^ s.params.wMs : Nat) : Int)) ∧
      exec (.adv 0) s = .next { s with regs := { s.regs with bank := b } } ∧
      sh = s.regs.hour.sy.extractLsb' 0 1 ++ BitVec.ofBool s.pins.btnHourN ∧
      sm = s.regs.minute.sy.extractLsb' 0 1 ++ BitVec.ofBool s.pins.btnMinN ∧
      exec .gate s = .next { s with regs := { s.regs with
        bank := if due then b else s.regs.bank
        lastSec := if due then s.pins.now else s.regs.lastSec
        seq := .pollH
        hour := { s.regs.hour with sy := sh }
        minute := { s.regs.minute with sy := sm } } }

/-- R203: POLL_H in every state. The hour instance is polled; when it fires, the digits become those SETH of
`(GETH + 1) mod 24` gives; POLL_M is next. Beside the synchronisers nothing else changes. -/
def Obligations.PollHAdvancesTheHourOnAFiredEdge : Prop :=
  ∀ s : State,
    decode (.seqph 0b0100) = .ok .pollH ∧
    ∃ (p g : State) (b : Bank) (sh sm : BitVec 2),
      exec (.poll .hour) s = .next p ∧ exec .geth s = .next g ∧
      exec (.seth (BitVec.ofNat 5 ((g.rdata.toNat + 1) % 24))) s = .next { s with regs := { s.regs with bank := b } } ∧
      sh = s.regs.hour.sy.extractLsb' 0 1 ++ BitVec.ofBool s.pins.btnHourN ∧
      sm = s.regs.minute.sy.extractLsb' 0 1 ++ BitVec.ofBool s.pins.btnMinN ∧
      exec .pollH s = .next { s with
        fire := p.fire
        regs := { s.regs with
          bank := if p.fire then b else s.regs.bank
          seq := .pollM
          hour := { p.regs.hour with sy := sh }
          minute := { s.regs.minute with sy := sm } } }

/-- R204: POLL_M in every state. The minute instance is polled; when it fires, the digits become those SETM of
`(GETM + 1) mod 60` gives; SWEEP from position 0 is next. Beside the synchronisers nothing else changes. -/
def Obligations.PollMAdvancesTheMinuteAndStartsTheSweep : Prop :=
  ∀ s : State,
    decode (.seqph 0b1000) = .ok .pollM ∧
    ∃ (p g : State) (b : Bank) (sh sm : BitVec 2),
      exec (.poll .minute) s = .next p ∧ exec .getm s = .next g ∧
      exec (.setm (BitVec.ofNat 6 ((g.rdata.toNat + 1) % 60))) s = .next { s with regs := { s.regs with bank := b } } ∧
      sh = s.regs.hour.sy.extractLsb' 0 1 ++ BitVec.ofBool s.pins.btnHourN ∧
      sm = s.regs.minute.sy.extractLsb' 0 1 ++ BitVec.ofBool s.pins.btnMinN ∧
      exec .pollM s = .next { s with
        fire := p.fire
        regs := { s.regs with
          bank := if p.fire then b else s.regs.bank
          seq := .sweep
          pos := 0
          phase := .drive
          cnt := 0
          hour := { s.regs.hour with sy := sh }
          minute := { p.regs.minute with sy := sm } } }

/-- R209: a fired hour edge changes only A and B, to the next hour modulo 24. -/
def Obligations.HourActionChangesOnlyTheHours : Prop :=
  ∀ s t : State, s.regs.bank.Inv → exec .pollH s = .next t → t.fire = true →
    t.regs.bank = { s.regs.bank with A := t.regs.bank.A, B := t.regs.bank.B } ∧
    t.regs.bank.hh = (s.regs.bank.hh + 1) % 24 ∧ t.regs.lastSec = s.regs.lastSec ∧
    (∃ g, exec .geth s = .next g ∧ t.regs.bank.hh = (g.rdata.toNat + 1) % 24)

/-- R210: a fired minute edge changes only C and D, to the next minute modulo 60; from `hh:59:ss` it gives `hh:00:ss`. -/
def Obligations.MinuteActionDoesNotCarry : Prop :=
  ∀ s t : State, s.regs.bank.Inv → exec .pollM s = .next t → t.fire = true →
    t.regs.bank = { s.regs.bank with C := t.regs.bank.C, D := t.regs.bank.D } ∧
    t.regs.bank.mm = (s.regs.bank.mm + 1) % 60 ∧
    (∃ g, exec .getm s = .next g ∧ t.regs.bank.mm = (g.rdata.toNat + 1) % 60) ∧
    (s.regs.bank.mm = 59 → t.regs.bank = { s.regs.bank with C := 0, D := 0 })

/-- R27: `seq` takes its four encodings, cycles GATE, POLL_H, POLL_M, SWEEP, stays in SWEEP for the whole sweep, takes no
other order, is written by no command, read or poll, and is GATE after reset. -/
def Obligations.SequencerTakesNoOtherOrder : Prop :=
  (SeqState.bits .gate = 0b00 ∧ SeqState.bits .pollH = 0b01 ∧ SeqState.bits .pollM = 0b10 ∧
    SeqState.bits .sweep = 0b11) ∧
  (∀ (v : Inputs) (s t : State), v.rst = false → EdgeRun [v] s t →
    t.regs.seq = match s.regs.seq with
      | .gate => .pollH
      | .pollH => .pollM
      | .pollM => .sweep
      | .sweep =>
        if (s.regs.phase = .off ∨ s.regs.phase = .reserved) ∧ 5 ≤ s.regs.pos.toNat then .gate else .sweep) ∧
  (∀ s t : State, (∀ v, s.nextStimulus ≠ .edge v) → (∀ w, s.nextStimulus ≠ .command true w) → step s = .next t →
    t.regs.seq = s.regs.seq) ∧
  (∀ s : State, ∃ t, exec .reset s = .next t ∧ t.regs.seq = .gate)

/-- R208, with R100 and R201: at every edge without reset the bank takes the one command the sequencer drives: ADV only in
GATE, SETH only in POLL_H, SETM only in POLL_M, and NOP in every cycle of the sweep, where the digits are constant. -/
def Obligations.SequencerDrivesTheCommandPort : Prop :=
  (∀ (v : Inputs) (s t : State), v.rst = false → EdgeRun [v] s t →
    ∃ u, exec (decodeCommand s.fetched.sequencerWord) s.fetched = .next u ∧ t.regs.bank = u.regs.bank) ∧
  (∀ s : State,
    (∀ arg, decodeCommand s.sequencerWord = .adv arg → s.regs.seq = .gate) ∧
    (∀ h, decodeCommand s.sequencerWord = .seth h → s.regs.seq = .pollH) ∧
    (∀ m, decodeCommand s.sequencerWord = .setm m → s.regs.seq = .pollM) ∧
    (s.regs.seq = .sweep → s.sequencerWord = 0x00)) ∧
  (∀ (v : Inputs) (s t : State), v.rst = false → s.regs.seq = .sweep → EdgeRun [v] s t → t.regs.bank = s.regs.bank)

/-- From R207 and R233: one iteration takes the second first, then the hour from the advanced time, then the minute. -/
def Obligations.IterationOrderIsAdvThenHourThenMinute : Prop :=
  ∀ (v0 v1 v2 : Inputs) (s s1 s2 s3 : State), NoReset [v0, v1, v2] → s.regs.seq = .gate → s.regs.bank.Inv →
    EdgeRun [v0] s s1 → EdgeRun [v1] s1 s2 → EdgeRun [v2] s2 s3 →
    s1.regs.seq = .pollH ∧ s2.regs.seq = .pollM ∧ s3.regs.seq = .sweep ∧
    s1.regs.bank.secondOfDay =
      (if s.fetched.gateDue then (s.regs.bank.secondOfDay + 1) % 86400 else s.regs.bank.secondOfDay) ∧
    (s2.regs.bank.hh = (if s2.fire then (s1.regs.bank.hh + 1) % 24 else s1.regs.bank.hh) ∧
      s2.regs.bank.mm = s1.regs.bank.mm ∧ s2.regs.bank.ss = s1.regs.bank.ss) ∧
    (s3.regs.bank.mm = (if s3.fire then (s2.regs.bank.mm + 1) % 60 else s2.regs.bank.mm) ∧
      s3.regs.bank.hh = s2.regs.bank.hh ∧ s3.regs.bank.ss = s2.regs.bank.ss)

/-- R31: `last_sec` is written only by GATE, which stores the sampled `now` when it fires, and is 0 after reset. -/
def Obligations.LastSecIsWrittenByGateOnly : Prop :=
  (∀ (i : Instr) (s t : State), exec i s = .next t → i ≠ .gate → i ≠ .reset → t.regs.lastSec = s.regs.lastSec) ∧
  (∀ s : State, ∃ t, exec .gate s = .next t ∧
    t.regs.lastSec = if s.gateDue then s.pins.now else s.regs.lastSec) ∧
  (∀ s : State, ∃ t, exec .reset s = .next t ∧ t.regs.lastSec = 0)

/-- From R211 and R206, for a second that the GATE cycle before found not yet due: let a GATE cycle find no second due and
the next GATE cycle, `P` edges later and `j <= J` milliseconds later with `999 + J < 2^W_MS`, find one due. Then `last_sec`
is still the boundary before both, and the elapsed time the second cycle finds lies between 1000 and `999 + J`. Two GATE
cycles in a row that are both due (`J >= 1000`) are not this case, and that a due GATE does ADV is GATE's own statement. -/
def Obligations.ConsecutiveSecondsAreAtMostOneIterationLate : Prop :=
  ∀ (v : Inputs) (vs : List Inputs) (w : Inputs) (s g : State) (j J : Nat),
    NoReset (v :: vs) → s.params.Wf → s.regs.seq = .gate → (v :: vs).length = 6 * s.params.dwellCyc + 15 →
    EdgeRun (v :: vs) s g → s.fetched.gateDue = false →
    g.EdgeNext w → w.now % 2 ^ s.params.wMs = (s.fetched.pins.now + j) % 2 ^ s.params.wMs →
    j ≤ J → 999 + J < 2 ^ s.params.wMs → g.fetched.gateDue = true →
    g.regs.seq = .gate ∧ g.regs.lastSec = s.regs.lastSec ∧
    1000 ≤ subW s.params.wMs g.fetched.pins.now s.regs.lastSec ∧
    subW s.params.wMs g.fetched.pins.now s.regs.lastSec ≤ 999 + J

/-! ### The Display Multiplexer -/

/-- R143: DRIVE in every state: then ON with `cnt = 0`; during the cycle every enable is low and `bcd` is the digit. -/
def Obligations.DriveGoesOn : Prop :=
  ∀ s : State,
    decode (.seqph 0b1100) = .ok .muxDrive ∧
    exec .muxDrive s = .next { s with regs := { s.regs with
      phase := .on
      cnt := 0
      hour := { s.regs.hour with sy := s.regs.hour.sy.extractLsb' 0 1 ++ BitVec.ofBool s.pins.btnHourN }
      minute := { s.regs.minute with sy := s.regs.minute.sy.extractLsb' 0 1 ++ BitVec.ofBool s.pins.btnMinN } } } ∧
    (s.regs.phase = .drive → s.en = 0 ∧ s.bcd = s.regs.bank.digit s.regs.pos)

/-- R144: ON in every state, and how long it lasts: from `cnt = 0` it holds its position for exactly `DWELL_CYC` edges,
with the position's enable asserted, and then is OFF. -/
def Obligations.OnHoldsForTheDwell : Prop :=
  (∀ s : State,
    decode (.seqph 0b1101) = .ok .muxOn ∧
    exec .muxOn s = .next { s with regs := { s.regs with
      phase := if s.params.dwellCyc - 1 ≤ s.regs.cnt then .off else s.regs.phase
      cnt := if s.params.dwellCyc - 1 ≤ s.regs.cnt then 0 else s.regs.cnt + 1
      hour := { s.regs.hour with sy := s.regs.hour.sy.extractLsb' 0 1 ++ BitVec.ofBool s.pins.btnHourN }
      minute := { s.regs.minute with sy := s.regs.minute.sy.extractLsb' 0 1 ++ BitVec.ofBool s.pins.btnMinN } } }) ∧
  (∀ (vs : List Inputs) (s t : State), NoReset vs → s.params.Wf → s.regs.seq = .sweep → s.regs.phase = .on →
    s.regs.cnt = 0 → s.regs.pos.toNat ≤ 5 → vs.length ≤ s.params.dwellCyc → EdgeRun vs s t →
    t.regs.pos = s.regs.pos ∧
    (vs.length < s.params.dwellCyc → t.regs.phase = .on ∧ t.en = 1#6 <<< s.regs.pos.toNat ∧ t.bcd = s.bcd) ∧
    (vs.length = s.params.dwellCyc → t.regs.phase = .off ∧ t.en = 0))

/-- R145, R146: OFF, and the reserved phase, in every state: the next position's DRIVE, or GATE at rest after position 5;
during the cycle every enable is low. No step from an invariant state reaches the reserved phase. -/
def Obligations.OffMovesToTheNextPositionOrEndsTheSweep : Prop :=
  (∀ s t : State, s.Inv → step s = .next t → t.regs.phase ≠ .reserved) ∧
  ∀ s : State,
    decode (.seqph 0b1110) = .ok .muxOff ∧ decode (.seqph 0b1111) = .ok .muxReserved ∧
    exec .muxReserved s = exec .muxOff s ∧
    exec .muxOff s = .next { s with regs := { s.regs with
      seq := if 5 ≤ s.regs.pos.toNat then .gate else s.regs.seq
      pos := if 5 ≤ s.regs.pos.toNat then 0 else s.regs.pos + 1
      phase := .drive
      cnt := if 5 ≤ s.regs.pos.toNat then 0 else s.regs.cnt
      hour := { s.regs.hour with sy := s.regs.hour.sy.extractLsb' 0 1 ++ BitVec.ofBool s.pins.btnHourN }
      minute := { s.regs.minute with sy := s.regs.minute.sy.extractLsb' 0 1 ++ BitVec.ofBool s.pins.btnMinN } } } ∧
    (s.regs.phase = .off ∨ s.regs.phase = .reserved → s.en = 0 ∧ s.bcd = s.regs.bank.digit s.regs.pos)

/-- R141, R142: the enable of position p is asserted exactly in the ON phase of a sweep at `pos = p`, and `bcd` is the
digit of `pos`, in every state; at the reserved positions it is the reserved read, 0. -/
def Obligations.OutputsShowTheDigitOfThePosition : Prop :=
  ∀ s : State,
    (∀ p : Fin 6, s.en.getLsbD p.val = true ↔ s.regs.seq = .sweep ∧ s.regs.phase = .on ∧ s.regs.pos.toNat = p.val) ∧
    (s.regs.pos = 0 → s.bcd = s.regs.bank.A) ∧ (s.regs.pos = 1 → s.bcd = s.regs.bank.B) ∧
    (s.regs.pos = 2 → s.bcd = s.regs.bank.C) ∧ (s.regs.pos = 3 → s.bcd = s.regs.bank.D) ∧
    (s.regs.pos = 4 → s.bcd = s.regs.bank.E) ∧ (s.regs.pos = 5 → s.bcd = s.regs.bank.F) ∧
    (6 ≤ s.regs.pos.toNat → s.bcd = 0)

/-- R147: in every state at most one enable is asserted. -/
def Obligations.AtMostOneEnableIsAsserted : Prop :=
  ∀ s : State, OneEnable s.en ∧ ∀ p q : Nat, s.en.getLsbD p = true → s.en.getLsbD q = true → p = q

/-- R148: across an edge without reset (R260 takes precedence), before or after which an enable is asserted, `bcd` and
`pos` keep their values; and in an ON cycle `bcd` is the digit of `pos`. -/
def Obligations.BcdIsStableWhileEnabled : Prop :=
  (∀ (v : Inputs) (s t : State), v.rst = false → EdgeRun [v] s t → s.en ≠ 0 ∨ t.en ≠ 0 →
    t.bcd = s.bcd ∧ t.regs.pos = s.regs.pos) ∧
  (∀ s : State, s.en ≠ 0 → s.bcd = s.regs.bank.digit s.regs.pos)

/-- R149: POLL_M starts a sweep at position 0 in DRIVE; and the state and the outputs k edges into a sweep that no reset
ends: `DWELL_CYC + 2` edges a position, one DRIVE, `DWELL_CYC` ON, one OFF, in order, and GATE at rest after
`6 * (DWELL_CYC + 2)`. -/
def Obligations.SweepHasItsShape : Prop :=
  (∀ s : State, ∃ t, exec .pollM s = .next t ∧ t.regs.seq = .sweep ∧ t.regs.Idle) ∧
  ∀ (vs : List Inputs) (s t : State), NoReset vs → s.params.Wf → s.regs.seq = .sweep → s.regs.Idle →
    vs.length ≤ 6 * (s.params.dwellCyc + 2) → EdgeRun vs s t →
    (vs.length = 6 * (s.params.dwellCyc + 2) → t.regs.seq = .gate ∧ t.regs.Idle ∧ t.en = 0) ∧
    (vs.length < 6 * (s.params.dwellCyc + 2) →
      (let p := vs.length / (s.params.dwellCyc + 2)
       let j := vs.length % (s.params.dwellCyc + 2)
       t.regs.seq = .sweep ∧ t.regs.pos.toNat = p ∧ t.bcd = s.regs.bank.digit t.regs.pos ∧
       t.regs.phase = (if j = 0 then .drive else if j ≤ s.params.dwellCyc then .on else .off) ∧
       t.regs.cnt = (if j = 0 then 0 else if j ≤ s.params.dwellCyc then j - 1 else 0) ∧
       t.en = (if 1 ≤ j ∧ j ≤ s.params.dwellCyc then 1#6 <<< p else 0)))

/-- From R271 and the first paragraph of R206: from a GATE cycle, without reset, the next GATE cycle comes after exactly
`P = 6 * DWELL_CYC + 15` edges, the last `6 * (DWELL_CYC + 2)` of them in the sweep. -/
def Obligations.IterationLastsPCycles : Prop :=
  (∀ (vs : List Inputs) (s t : State), NoReset vs → s.params.Wf → s.regs.seq = .gate → EdgeRun vs s t →
    (vs.length = 6 * s.params.dwellCyc + 15 → t.regs.seq = .gate) ∧
    (0 < vs.length ∧ vs.length < 3 → t.regs.seq = .pollH ∨ t.regs.seq = .pollM) ∧
    (3 ≤ vs.length ∧ vs.length < 6 * s.params.dwellCyc + 15 → t.regs.seq = .sweep)) ∧
  (∀ p : Params, Config.iterationCycles p = 6 * p.dwellCyc + 15 ∧ Config.sweepCycles p = 6 * (p.dwellCyc + 2) ∧
    Config.iterationTime p = (6 * p.dwellCyc + 15) * Config.tClk)

/-- R152 with R38: in every invariant state outside the sweep nothing is lit and `bcd` is A; and every step from an
invariant state, taken outside the sweep or not, leaves the multiplexer at rest when it is outside the sweep. -/
def Obligations.OutsideTheSweepNothingIsLit : Prop :=
  (∀ s : State, s.Inv → s.regs.seq ≠ .sweep → s.en = 0 ∧ s.bcd = s.regs.bank.A) ∧
  (∀ s t : State, s.Inv → step s = .next t → t.regs.seq ≠ .sweep → t.regs.pos = 0 ∧ t.regs.phase = .drive ∧ t.regs.cnt = 0)

/-! ### Reset, parameters, invariants -/

/-- From R260 and R100: at an edge with `rst = 1` the next registers are the reset values, whatever the state (the power-up
state of R36 too), the command and the other inputs are. That such an edge of the bank alone resets every register and not
only the digits is DEDUCED, the model's choice (assumption log, entry 19), and so is that the records of outputs stay
(entries 5 and 19). -/
def Obligations.ResetLoadsTheResetValues : Prop :=
  ∀ s : State,
    (∃ t, exec .reset s = .next t ∧ t = { s with regs := t.regs } ∧
      t.regs.bank = ⟨0, 0, 0, 0, 0, 0⟩ ∧ t.regs.seq = .gate ∧ t.regs.pos = 0 ∧ t.regs.phase = .drive ∧
      t.regs.cnt = 0 ∧ t.regs.lastSec = 0 ∧ t.regs.hour = ⟨false, 0, 0b11⟩ ∧ t.regs.minute = ⟨false, 0, 0b11⟩) ∧
    ((∃ v : Inputs, v.rst = true ∧ s.nextStimulus = .edge v) ∨ (∃ w, s.nextStimulus = .command true w) →
      step s = exec .reset s.fetched)

/-- R261: after each of a run of edges with `rst = 1` the registers are those of reset, no digit is lit and `bcd` is 0. -/
def Obligations.NothingIsLitDuringReset : Prop :=
  ∀ (vs : List Inputs) (s t : State), vs ≠ [] → (∀ v ∈ vs, v.rst = true) → EdgeRun vs s t →
    t.regs = Regs.reset ∧ t.en = 0 ∧ t.bcd = 0

/-- From R262: in a GATE cycle with the registers of reset, ADV happens exactly when `now` has reached 1000. -/
def Obligations.FirstSecondAfterReset : Prop :=
  ∀ s : State, s.regs = Regs.reset → s.pins.now < 2 ^ s.params.wMs →
    ∃ t, exec .gate s = .next t ∧
      (1000 ≤ s.pins.now → t.regs.bank = ⟨0, 0, 0, 0, 0, 1⟩ ∧ t.regs.lastSec = s.pins.now) ∧
      (s.pins.now < 1000 → t.regs.bank = ⟨0, 0, 0, 0, 0, 0⟩ ∧ t.regs.lastSec = 0)

/-- R35: no step changes a parameter, and no operation does. -/
def Obligations.ParametersAreFixed : Prop :=
  (∀ (i : Instr) (s t : State), exec i s = .next t → t.params = s.params) ∧
  (∀ s t : State, step s = .next t → t.params = s.params)

/-- From R22, R23, R28, R29, R30, R38 and the widths of R20: the invariant of a run is kept by every step from every
state that meets it. -/
def Obligations.InvariantIsKeptByEveryStep : Prop :=
  ∀ s t : State, s.Inv → step s = .next t → t.Inv

/-- The state after reset meets the invariant, whatever the implementation's parameters are (R5, R6, R20). Its
parameters and inputs are the model's choices (assumption log, entries 1 and 6). -/
def Obligations.ResetMeetsTheInvariant : Prop :=
  State.reset.Inv
end

