-- ==== Sys2Proof/Laws/State.lean ====
section
/-! SUPPORT. One lemma per field per update: what each update of the state leaves and sets, so that no proof unfolds it. -/

namespace Sys2Proof.Machine

@[simp] theorem State.ignore_eq (s : State) : s.ignore = s := rfl

@[simp] theorem State.withBank_params (s : State) (b : Bank) : (s.withBank b).params = s.params := rfl
@[simp] theorem State.withBank_regs (s : State) (b : Bank) : (s.withBank b).regs = { s.regs with bank := b } := rfl
@[simp] theorem State.withBank_pins (s : State) (b : Bank) : (s.withBank b).pins = s.pins := rfl
@[simp] theorem State.withBank_rdata (s : State) (b : Bank) : (s.withBank b).rdata = s.rdata := rfl
@[simp] theorem State.withBank_fire (s : State) (b : Bank) : (s.withBank b).fire = s.fire := rfl
@[simp] theorem State.withBank_pending (s : State) (b : Bank) : (s.withBank b).pending = s.pending := rfl
@[simp] theorem State.withBank_draws (s : State) (b : Bank) : (s.withBank b).draws = s.draws := rfl

@[simp] theorem State.observe_params (s : State) (v : ReadData) : (s.observe v).params = s.params := rfl
@[simp] theorem State.observe_regs (s : State) (v : ReadData) : (s.observe v).regs = s.regs := rfl
@[simp] theorem State.observe_pins (s : State) (v : ReadData) : (s.observe v).pins = s.pins := rfl
@[simp] theorem State.observe_rdata (s : State) (v : ReadData) : (s.observe v).rdata = v := rfl
@[simp] theorem State.observe_fire (s : State) (v : ReadData) : (s.observe v).fire = s.fire := rfl
@[simp] theorem State.observe_pending (s : State) (v : ReadData) : (s.observe v).pending = s.pending := rfl
@[simp] theorem State.observe_draws (s : State) (v : ReadData) : (s.observe v).draws = s.draws := rfl

@[simp] theorem Debouncer.shift_lvl (p : Bool) (d : Debouncer) : (d.shift p).lvl = d.lvl := rfl
@[simp] theorem Debouncer.shift_tf (p : Bool) (d : Debouncer) : (d.shift p).tf = d.tf := rfl
@[simp] theorem Debouncer.shift_sy (p : Bool) (d : Debouncer) :
    (d.shift p).sy = d.sy.extractLsb' 0 1 ++ BitVec.ofBool p := rfl

@[simp] theorem Debouncer.polled_lvl (w : Nat) (n : Nat) (d : Debouncer) : (d.polled w n).lvl = d.pressed := rfl
@[simp] theorem Debouncer.polled_tf (w : Nat) (n : Nat) (d : Debouncer) :
    (d.polled w n).tf = if d.fires w n then n else d.tf := rfl
@[simp] theorem Debouncer.polled_sy (w : Nat) (n : Nat) (d : Debouncer) : (d.polled w n).sy = d.sy := rfl

@[simp] theorem Regs.debouncer_hour (r : Regs) : r.debouncer .hour = r.hour := rfl
@[simp] theorem Regs.debouncer_minute (r : Regs) : r.debouncer .minute = r.minute := rfl
@[simp] theorem Regs.setDebouncer_hour (r : Regs) (d : Debouncer) : r.setDebouncer .hour d = { r with hour := d } := rfl
@[simp] theorem Regs.setDebouncer_minute (r : Regs) (d : Debouncer) :
    r.setDebouncer .minute d = { r with minute := d } := rfl

@[simp] theorem Regs.setDebouncer_bank (r : Regs) (b : Button) (d : Debouncer) : (r.setDebouncer b d).bank = r.bank := by
  cases b <;> rfl
@[simp] theorem Regs.setDebouncer_seq (r : Regs) (b : Button) (d : Debouncer) : (r.setDebouncer b d).seq = r.seq := by
  cases b <;> rfl
@[simp] theorem Regs.setDebouncer_pos (r : Regs) (b : Button) (d : Debouncer) : (r.setDebouncer b d).pos = r.pos := by
  cases b <;> rfl
@[simp] theorem Regs.setDebouncer_phase (r : Regs) (b : Button) (d : Debouncer) :
    (r.setDebouncer b d).phase = r.phase := by cases b <;> rfl
@[simp] theorem Regs.setDebouncer_cnt (r : Regs) (b : Button) (d : Debouncer) : (r.setDebouncer b d).cnt = r.cnt := by
  cases b <;> rfl
@[simp] theorem Regs.setDebouncer_lastSec (r : Regs) (b : Button) (d : Debouncer) :
    (r.setDebouncer b d).lastSec = r.lastSec := by cases b <;> rfl
@[simp] theorem Regs.debouncer_setDebouncer (r : Regs) (b : Button) (d : Debouncer) :
    (r.setDebouncer b d).debouncer b = d := by cases b <;> rfl

@[simp] theorem State.pollOf_params (s : State) (b : Button) : (s.pollOf b).params = s.params := rfl
@[simp] theorem State.pollOf_regs (s : State) (b : Button) :
    (s.pollOf b).regs = s.regs.setDebouncer b ((s.regs.debouncer b).polled s.params.wMs s.pins.now) := rfl
@[simp] theorem State.pollOf_pins (s : State) (b : Button) : (s.pollOf b).pins = s.pins := rfl
@[simp] theorem State.pollOf_rdata (s : State) (b : Button) : (s.pollOf b).rdata = s.rdata := rfl
@[simp] theorem State.pollOf_fire (s : State) (b : Button) : (s.pollOf b).fire = s.fires b := rfl
@[simp] theorem State.pollOf_pending (s : State) (b : Button) : (s.pollOf b).pending = s.pending := rfl
@[simp] theorem State.pollOf_draws (s : State) (b : Button) : (s.pollOf b).draws = s.draws := rfl

@[simp] theorem State.clocked_params (s : State) (w : CommandWord) : (s.clocked w).params = s.params := rfl
@[simp] theorem State.clocked_bank (s : State) (w : CommandWord) : (s.clocked w).regs.bank = s.regs.bank.apply w := rfl
@[simp] theorem State.clocked_seq (s : State) (w : CommandWord) : (s.clocked w).regs.seq = s.regs.seq := rfl
@[simp] theorem State.clocked_pos (s : State) (w : CommandWord) : (s.clocked w).regs.pos = s.regs.pos := rfl
@[simp] theorem State.clocked_phase (s : State) (w : CommandWord) : (s.clocked w).regs.phase = s.regs.phase := rfl
@[simp] theorem State.clocked_cnt (s : State) (w : CommandWord) : (s.clocked w).regs.cnt = s.regs.cnt := rfl
@[simp] theorem State.clocked_lastSec (s : State) (w : CommandWord) :
    (s.clocked w).regs.lastSec = s.regs.lastSec := rfl
@[simp] theorem State.clocked_hour (s : State) (w : CommandWord) :
    (s.clocked w).regs.hour = s.regs.hour.shift s.pins.btnHourN := rfl
@[simp] theorem State.clocked_minute (s : State) (w : CommandWord) :
    (s.clocked w).regs.minute = s.regs.minute.shift s.pins.btnMinN := rfl
@[simp] theorem State.clocked_pins (s : State) (w : CommandWord) : (s.clocked w).pins = s.pins := rfl
@[simp] theorem State.clocked_rdata (s : State) (w : CommandWord) : (s.clocked w).rdata = s.rdata := rfl
@[simp] theorem State.clocked_fire (s : State) (w : CommandWord) : (s.clocked w).fire = s.fire := rfl
@[simp] theorem State.clocked_pending (s : State) (w : CommandWord) : (s.clocked w).pending = s.pending := rfl
@[simp] theorem State.clocked_draws (s : State) (w : CommandWord) : (s.clocked w).draws = s.draws := rfl

@[simp] theorem State.takeStimulus_params (s : State) : s.takeStimulus.params = s.params := by
  unfold State.takeStimulus; split <;> rfl
@[simp] theorem State.takeStimulus_regs (s : State) : s.takeStimulus.regs = s.regs := by
  unfold State.takeStimulus; split <;> rfl
@[simp] theorem State.takeStimulus_pins (s : State) : s.takeStimulus.pins = s.pins := by
  unfold State.takeStimulus; split <;> rfl
@[simp] theorem State.takeStimulus_rdata (s : State) : s.takeStimulus.rdata = s.rdata := by
  unfold State.takeStimulus; split <;> rfl
@[simp] theorem State.takeStimulus_fire (s : State) : s.takeStimulus.fire = s.fire := by
  unfold State.takeStimulus; split <;> rfl

@[simp] theorem State.present_edge (s : State) (v : Inputs) :
    s.present (.edge v) = { s with pins := v.sampled s.params.wMs } := rfl
@[simp] theorem State.present_command (s : State) (r : Bool) (w : CommandWord) :
    s.present (.command r w) = { s with pins := { s.pins with rst := r } } := rfl
@[simp] theorem State.present_read (s : State) (sel : ReadSelect) : s.present (.read sel) = s := rfl
@[simp] theorem State.present_poll (s : State) (b : Button) (p : Bool) (n : Nat) :
    s.present (.poll b p n) =
      { s with
        pins := { s.pins with now := truncW s.params.wMs n }
        regs := s.regs.setDebouncer b { s.regs.debouncer b with sy := levelSync p } } := rfl

@[simp] theorem State.fetched_params (s : State) : s.fetched.params = s.params := by
  unfold State.fetched; cases s.nextStimulus <;> simp

@[simp] theorem Inputs.sampled_rst (w : Nat) (v : Inputs) : (v.sampled w).rst = v.rst := rfl
@[simp] theorem Inputs.sampled_now (w : Nat) (v : Inputs) : (v.sampled w).now = v.now % 2 ^ w := rfl
@[simp] theorem Inputs.sampled_btnHourN (w : Nat) (v : Inputs) : (v.sampled w).btnHourN = v.btnHourN := rfl
@[simp] theorem Inputs.sampled_btnMinN (w : Nat) (v : Inputs) : (v.sampled w).btnMinN = v.btnMinN := rfl

end Sys2Proof.Machine
end

