-- ==== Sys2Proof/Laws/Ops.lean ====
section
/-! SUPPORT. One lemma per shared operation that says what it does: elapsed time, the carry stages, the commands, the
command words, the read port, a poll and the synchroniser. -/

namespace Sys2Proof.Machine

/-! ### Elapsed time -/

theorem subW_lt (w a b : Nat) : subW w a b < 2 ^ w := Nat.mod_lt _ (Nat.two_pow_pos w)

/-- `sub_W(a, b)` is `(a - b) mod 2^w` on integers (R11). -/
theorem subW_eq_int (w a b : Nat) : (subW w a b : Int) = ((a : Int) - b) % ((2 ^ w : Nat) : Int) := by
  unfold subW
  have hp : 0 < 2 ^ w := Nat.two_pow_pos w
  generalize 2 ^ w = m at hp
  have hb : b % m < m := Nat.mod_lt _ hp
  have h : ((a + (m - b % m) : Nat) : Int) = ((a : Int) - b) + m * (1 + (b : Int) / m) := by
    have hdiv : (m : Int) * ((b : Int) / m) + (b : Int) % m = b := Int.mul_ediv_add_emod _ _
    have hcast : (((b % m : Nat)) : Int) = (b : Int) % m := by norm_num
    have h1 : ((a + (m - b % m) : Nat) : Int) = (a : Int) + ((m : Int) - ((b % m : Nat) : Int)) := by omega
    rw [h1, hcast]
    have h2 : (m : Int) * (1 + (b : Int) / m) = m + m * ((b : Int) / m) := by ring
    rw [h2]; omega
  rw [Int.natCast_emod, h, Int.add_mul_emod_self_left]

/-- Between an instant and the one `n` milliseconds later, `sub_W` measures `n mod 2^w` (R68). -/
theorem subW_elapsed (w t n : Nat) : subW w ((t + n) % 2 ^ w) t = n % 2 ^ w := by
  have h : (subW w ((t + n) % 2 ^ w) t : Int) = ((n % 2 ^ w : Nat) : Int) := by
    rw [subW_eq_int]
    push_cast
    rw [Int.emod_sub_emod]
    congr 1; ring
  exact_mod_cast h

theorem subW_zero_right (w n : Nat) (h : n < 2 ^ w) : subW w n 0 = n := by
  have := subW_elapsed w 0 n
  simpa [Nat.mod_eq_of_lt h] using this

/-! ### The commands -/

@[simp] theorem carryStage_false (t x : Digit) : carryStage t false x = (x, false) := rfl
theorem carryStage_true (t x : Digit) :
    carryStage t true x = if x = t then (0, true) else (x + 1, false) := rfl

theorem Bank.setHours_of_le (b : Bank) {h : BitVec 5} (hh : h.toNat ≤ 23) :
    b.setHours h = { b with A := BitVec.ofNat 4 (h.toNat / 10), B := BitVec.ofNat 4 (h.toNat % 10) } := if_pos hh

theorem Bank.setHours_of_gt (b : Bank) {h : BitVec 5} (hh : 23 < h.toNat) : b.setHours h = b := if_neg (by omega)

theorem Bank.setMinutes_of_le (b : Bank) {m : BitVec 6} (hm : m.toNat ≤ 59) :
    b.setMinutes m = { b with C := BitVec.ofNat 4 (m.toNat / 10), D := BitVec.ofNat 4 (m.toNat % 10) } := if_pos hm

theorem Bank.setMinutes_of_gt (b : Bank) {m : BitVec 6} (hm : 59 < m.toNat) : b.setMinutes m = b := if_neg (by omega)

theorem Bank.setHours_inv {b : Bank} (hb : b.Inv) (h : BitVec 5) : (b.setHours h).Inv := by
  by_cases hh : h.toNat ≤ 23
  · rw [Bank.setHours_of_le b hh]
    obtain ⟨-, -, hC, hD, hE, hF, -⟩ := hb
    simp only [Bank.Inv, BitVec.toNat_ofNat]
    omega
  · rw [Bank.setHours_of_gt b (by omega)]; exact hb

theorem Bank.setMinutes_inv {b : Bank} (hb : b.Inv) (m : BitVec 6) : (b.setMinutes m).Inv := by
  by_cases hm : m.toNat ≤ 59
  · rw [Bank.setMinutes_of_le b hm]
    obtain ⟨hA, hB, -, -, hE, hF, hAB⟩ := hb
    simp only [Bank.Inv, BitVec.toNat_ofNat]
    omega
  · rw [Bank.setMinutes_of_gt b (by omega)]; exact hb

/-- What a stage does to a digit within its range: it passes it, wraps it and carries on, or increments it. -/
theorem carryStage_cases (t x : Digit) (c : Bool) (hx : x.toNat ≤ t.toNat) (ht : t.toNat < 15) :
    (c = false ∧ (carryStage t c x).1.toNat = x.toNat ∧ (carryStage t c x).2 = false) ∨
    (c = true ∧ x.toNat = t.toNat ∧ (carryStage t c x).1.toNat = 0 ∧ (carryStage t c x).2 = true) ∨
    (c = true ∧ x.toNat < t.toNat ∧ (carryStage t c x).1.toNat = x.toNat + 1 ∧ (carryStage t c x).2 = false) := by
  cases c
  · exact .inl ⟨rfl, rfl, rfl⟩
  · rw [carryStage_true]
    by_cases h : x = t
    · exact .inr (.inl ⟨rfl, by rw [h], by simp [h], by simp [h]⟩)
    · have hne : x.toNat ≠ t.toNat := fun e => h (BitVec.eq_of_toNat_eq e)
      refine .inr (.inr ⟨rfl, by omega, ?_, by simp [h]⟩)
      have h1 : (x + 1#4).toNat = (x.toNat + 1) % 16 := BitVec.toNat_add x 1#4
      have h2 : (if x = t then ((0 : Digit), true) else (x + 1, false)).1 = x + 1#4 := by simp [h]
      rw [h2, h1]; omega

/-- The hours stage on an invariant pair counts modulo 24. -/
theorem hourStage_toNat (a b : Digit) (c : Bool) (ha : a.toNat ≤ 2) (hb : b.toNat ≤ 9)
    (hab : 10 * a.toNat + b.toNat ≤ 23) :
    (hourStage c a b).1.toNat ≤ 2 ∧ (hourStage c a b).2.toNat ≤ 9 ∧
    10 * (hourStage c a b).1.toNat + (hourStage c a b).2.toNat =
      if c then (10 * a.toNat + b.toNat + 1) % 24 else 10 * a.toNat + b.toNat := by
  revert a b c; decide

/-- ADV on an invariant state: the carries and the digits, on numbers (R102). -/
theorem Bank.adv_toNat {b : Bank} (hb : b.Inv) :
    b.adv.Inv ∧
    b.adv.ss = (b.ss + 1) % 60 ∧
    b.adv.mm = (if b.ss = 59 then (b.mm + 1) % 60 else b.mm) ∧
    b.adv.hh = (if b.ss = 59 ∧ b.mm = 59 then (b.hh + 1) % 24 else b.hh) := by
  obtain ⟨hA, hB, hC, hD, hE, hF, hAB⟩ := hb
  have sF := carryStage_cases 9 b.F true hF (by decide)
  have sE := carryStage_cases 5 b.E (carryStage 9 true b.F).2 hE (by decide)
  have sD := carryStage_cases 9 b.D (carryStage 5 (carryStage 9 true b.F).2 b.E).2 hD (by decide)
  have sC := carryStage_cases 5 b.C
    (carryStage 9 (carryStage 5 (carryStage 9 true b.F).2 b.E).2 b.D).2 hC (by decide)
  have sH := hourStage_toNat b.A b.B
    (carryStage 5 (carryStage 9 (carryStage 5 (carryStage 9 true b.F).2 b.E).2 b.D).2 b.C).2 hA hB hAB
  have n9 : (9 : Digit).toNat = 9 := rfl
  have n5 : (5 : Digit).toNat = 5 := rfl
  simp only [Bank.Inv, Bank.hh, Bank.mm, Bank.ss, Bank.adv]
  generalize carryStage 9 true b.F = f at *
  generalize carryStage 5 f.2 b.E = e at *
  generalize carryStage 9 e.2 b.D = d at *
  generalize carryStage 5 d.2 b.C = c at *
  generalize hourStage c.2 b.A b.B = h at *
  rw [n9] at sF sD
  rw [n5] at sE sC
  by_cases hs : 10 * b.E.toNat + b.F.toNat = 59
  · by_cases hm : 10 * b.C.toNat + b.D.toNat = 59
    · obtain ⟨-, -, f1, f2⟩ : true = true ∧ b.F.toNat = 9 ∧ f.1.toNat = 0 ∧ f.2 = true := by
        rcases sF with ⟨h0, -⟩ | h1 | ⟨-, h2, -⟩
        · cases h0
        · exact h1
        · omega
      obtain ⟨-, -, e1, e2⟩ : f.2 = true ∧ b.E.toNat = 5 ∧ e.1.toNat = 0 ∧ e.2 = true := by
        rcases sE with ⟨h0, -⟩ | h1 | ⟨-, h2, -⟩
        · rw [f2] at h0; cases h0
        · exact h1
        · omega
      obtain ⟨-, -, d1, d2⟩ : e.2 = true ∧ b.D.toNat = 9 ∧ d.1.toNat = 0 ∧ d.2 = true := by
        rcases sD with ⟨h0, -⟩ | h1 | ⟨-, h2, -⟩
        · rw [e2] at h0; cases h0
        · exact h1
        · omega
      obtain ⟨-, -, c1, c2⟩ : d.2 = true ∧ b.C.toNat = 5 ∧ c.1.toNat = 0 ∧ c.2 = true := by
        rcases sC with ⟨h0, -⟩ | h1 | ⟨-, h2, -⟩
        · rw [d2] at h0; cases h0
        · exact h1
        · omega
      rw [c2, if_pos rfl] at sH
      simp only [hs, hm, and_self, if_true]
      omega
    · simp only [hs, hm, and_false, if_false, if_true]
      have hc : c.2 = false := by
        rcases sC with ⟨-, -, h0⟩ | ⟨hd, hC5, -⟩ | ⟨-, -, -, h2⟩
        · exact h0
        · rcases sD with ⟨-, -, h0⟩ | ⟨-, hD9, -⟩ | ⟨-, -, -, h2⟩
          · rw [hd] at h0; cases h0
          · omega
          · rw [hd] at h2; cases h2
        · exact h2
      rw [hc, if_neg (by decide)] at sH
      rcases sF with ⟨h0, -⟩ | ⟨-, hF9, f1, f2⟩ | ⟨-, h2, -⟩
      · cases h0
      · rcases sE with ⟨h0, -⟩ | ⟨-, hE5, e1, e2⟩ | ⟨-, h2, -⟩
        · rw [f2] at h0; cases h0
        · rcases sD with ⟨h0, -⟩ | ⟨-, hD9, d1, d2⟩ | ⟨-, hDlt, d1, d2⟩
          · rw [e2] at h0; cases h0
          · rcases sC with ⟨h0, -⟩ | ⟨-, hC5, -, -⟩ | ⟨-, hClt, c1, -⟩
            · rw [d2] at h0; cases h0
            · omega
            · omega
          · rcases sC with ⟨-, c1, -⟩ | ⟨h0, -⟩ | ⟨h0, -⟩
            · omega
            · rw [d2] at h0; cases h0
            · rw [d2] at h0; cases h0
        · omega
      · omega
  · simp only [hs, false_and, if_false]
    have he : e.2 = false := by
      rcases sE with ⟨-, -, h0⟩ | ⟨hf, hE5, -⟩ | ⟨-, -, -, h2⟩
      · exact h0
      · rcases sF with ⟨h0, -⟩ | ⟨-, hF9, -⟩ | ⟨-, -, -, h2⟩
        · cases h0
        · omega
        · rw [hf] at h2; cases h2
      · exact h2
    have hd : d.2 = false ∧ d.1.toNat = b.D.toNat := by
      rcases sD with ⟨-, h1, h0⟩ | ⟨h0, -⟩ | ⟨h0, -⟩
      · exact ⟨h0, h1⟩
      · rw [he] at h0; cases h0
      · rw [he] at h0; cases h0
    have hc : c.2 = false ∧ c.1.toNat = b.C.toNat := by
      rcases sC with ⟨-, h1, h0⟩ | ⟨h0, -⟩ | ⟨h0, -⟩
      · exact ⟨h0, h1⟩
      · rw [hd.1] at h0; cases h0
      · rw [hd.1] at h0; cases h0
    rw [hc.1, if_neg (by decide)] at sH
    rcases sF with ⟨h0, -⟩ | ⟨-, hF9, f1, f2⟩ | ⟨-, hFlt, f1, f2⟩
    · cases h0
    · rcases sE with ⟨h0, -⟩ | ⟨-, hE5, e1, -⟩ | ⟨-, hElt, e1, -⟩
      · rw [f2] at h0; cases h0
      · omega
      · omega
    · rcases sE with ⟨-, e1, -⟩ | ⟨h0, -⟩ | ⟨h0, -⟩
      · omega
      · rw [f2] at h0; cases h0
      · rw [f2] at h0; cases h0

theorem Bank.adv_inv {b : Bank} (hb : b.Inv) : b.adv.Inv := (Bank.adv_toNat hb).1

theorem Bank.secondOfDay_lt {b : Bank} (hb : b.Inv) : b.secondOfDay < 86400 := by
  simp only [Bank.Inv, Bank.ss, Bank.mm, Bank.hh, Bank.secondOfDay] at hb ⊢
  omega

/-- ADV is the successor of the second of the day (R115). -/
theorem Bank.adv_secondOfDay {b : Bank} (hb : b.Inv) : b.adv.secondOfDay = (b.secondOfDay + 1) % 86400 := by
  obtain ⟨-, hs, hm, hh⟩ := Bank.adv_toNat hb
  have ls : b.ss ≤ 59 := by simp only [Bank.Inv, Bank.ss] at hb ⊢; omega
  have lm : b.mm ≤ 59 := by simp only [Bank.Inv, Bank.mm] at hb ⊢; omega
  have lh : b.hh ≤ 23 := hb.2.2.2.2.2.2
  unfold Bank.secondOfDay
  rw [hs, hm, hh]
  by_cases c1 : b.ss = 59
  · by_cases c2 : b.mm = 59
    · by_cases c3 : b.hh = 23
      · simp [c1, c2, c3]
      · rw [Nat.mod_eq_of_lt (show 3600 * b.hh + 60 * b.mm + b.ss + 1 < 86400 by omega),
          Nat.mod_eq_of_lt (show b.hh + 1 < 24 by omega)]
        simp only [c1, c2, and_self, if_true]; omega
    · rw [Nat.mod_eq_of_lt (show 3600 * b.hh + 60 * b.mm + b.ss + 1 < 86400 by omega),
        Nat.mod_eq_of_lt (show b.mm + 1 < 60 by omega)]
      simp only [c1, c2, and_false, if_true, if_false]; omega
  · rw [Nat.mod_eq_of_lt (show 3600 * b.hh + 60 * b.mm + b.ss + 1 < 86400 by omega),
      Nat.mod_eq_of_lt (show b.ss + 1 < 60 by omega)]
    simp only [c1, false_and, if_false]; omega

/-- An invariant bank is known by its second of the day (R105). -/
theorem Bank.eq_of_secondOfDay {b c : Bank} (hb : b.Inv) (hc : c.Inv) (h : b.secondOfDay = c.secondOfDay) : b = c := by
  obtain ⟨h1, h2, h3, h4, h5, h6, h7⟩ := hb
  obtain ⟨g1, g2, g3, g4, g5, g6, g7⟩ := hc
  simp only [Bank.secondOfDay, Bank.hh, Bank.mm, Bank.ss] at h
  obtain ⟨A, B, C, D, E, F⟩ := b
  obtain ⟨A', B', C', D', E', F'⟩ := c
  simp only at *
  simp only [Bank.mk.injEq]
  refine ⟨?_, ?_, ?_, ?_, ?_, ?_⟩ <;> apply BitVec.eq_of_toNat_eq <;> omega

/-! ### The command words -/

@[simp] theorem Bank.apply_nopWord (b : Bank) : b.apply nopWord = b := rfl
@[simp] theorem Bank.apply_advWord (b : Bank) : b.apply advWord = b.adv := rfl

theorem decodeCommand_seth (h : BitVec 5) (hh : h.toNat ≤ 23) : decodeCommand (BitVec.ofNat 8 (0x80 + h.toNat)) = .seth h := by
  revert h; decide

theorem decodeCommand_setm (m : BitVec 6) (hm : m.toNat ≤ 59) : decodeCommand (BitVec.ofNat 8 (0xC0 + m.toNat)) = .setm m := by
  revert m; decide

/-- The word `0x80 + h` sets the hours (R82, R106). -/
theorem Bank.apply_seth (b : Bank) (h : Nat) (hh : h ≤ 23) :
    b.apply (BitVec.ofNat 8 (0x80 + h)) = b.setHours (BitVec.ofNat 5 h) := by
  have e : (BitVec.ofNat 5 h).toNat = h := by rw [BitVec.toNat_ofNat]; omega
  have := decodeCommand_seth (BitVec.ofNat 5 h) (by omega)
  rw [e] at this
  simp [Bank.apply, this]

/-- The word `0xC0 + m` sets the minutes (R83, R108). -/
theorem Bank.apply_setm (b : Bank) (m : Nat) (hm : m ≤ 59) :
    b.apply (BitVec.ofNat 8 (0xC0 + m)) = b.setMinutes (BitVec.ofNat 6 m) := by
  have e : (BitVec.ofNat 6 m).toNat = m := by rw [BitVec.toNat_ofNat]; omega
  have := decodeCommand_setm (BitVec.ofNat 6 m) (by omega)
  rw [e] at this
  simp [Bank.apply, this]

/-- Every command word keeps the invariant (R114). -/
theorem Bank.apply_inv {b : Bank} (hb : b.Inv) (w : CommandWord) : (b.apply w).Inv := by
  unfold Bank.apply
  split
  · exact Bank.adv_inv hb
  · exact Bank.setHours_inv hb _
  · exact Bank.setMinutes_inv hb _
  all_goals exact hb

/-! ### The reads -/

theorem Bank.readHours_toNat (b : Bank) : b.readHours.toNat = (10 * b.A.toNat + b.B.toNat) % 32 := by
  simp only [Bank.readHours, BitVec.toNat_setWidth, BitVec.toNat_ofNat]; omega

theorem Bank.readMinutes_toNat (b : Bank) : b.readMinutes.toNat = (10 * b.C.toNat + b.D.toNat) % 64 := by
  simp [Bank.readMinutes]

@[simp] theorem Bank.readPort_geth (b : Bank) : b.readPort 0b1000#4 = b.readHours := rfl
@[simp] theorem Bank.readPort_getm (b : Bank) : b.readPort 0b1001#4 = b.readMinutes := rfl
theorem Bank.readPort_getd (b : Bank) (p : Position) : b.readPort (0#1 ++ p) = b.readDigit p := by
  have h : ∀ p : Position, (0#1 ++ p).extractLsb' 3 1 = 0#1 ∧ (0#1 ++ p).extractLsb' 0 3 = p := by decide
  simp [Bank.readPort, h p]

/-- `bcd` is the digit of `pos`, or 0 at the reserved positions (R142, R113). -/
theorem State.bcd_eq (s : State) : s.bcd = s.regs.bank.digit s.regs.pos := by
  have h : ∀ x : BitVec 4, (x.setWidth 6).setWidth 4 = x := by decide
  rw [State.bcd, Bank.readPort_getd, Bank.readDigit, h]

/-! ### Button actions -/

/-- POLL_H's word is SETH of the next hour (R203). -/
theorem Bank.apply_nextHourWord (b : Bank) :
    b.apply b.nextHourWord = b.setHours (BitVec.ofNat 5 ((b.readHours.toNat + 1) % 24)) := by
  rw [Bank.nextHourWord, Bank.readPort_geth]
  exact Bank.apply_seth b _ (by omega)

/-- POLL_M's word is SETM of the next minute (R204). -/
theorem Bank.apply_nextMinuteWord (b : Bank) :
    b.apply b.nextMinuteWord = b.setMinutes (BitVec.ofNat 6 ((b.readMinutes.toNat + 1) % 60)) := by
  rw [Bank.nextMinuteWord, Bank.readPort_getm]
  exact Bank.apply_setm b _ (by omega)

/-! ### Pins and polls -/

/-- The level a poll sees after an edge is that of the first flip-flop before it (R171, R172). -/
theorem Debouncer.shift_pressed (p : Bool) (d : Debouncer) : (d.shift p).pressed = !d.sy.getLsbD 0 := by
  have h : ∀ (x : BitVec 2) (p : Bool), (x.extractLsb' 0 1 ++ BitVec.ofBool p).getLsbD 1 = x.getLsbD 0 := by decide
  simp only [Debouncer.pressed, Debouncer.shift_sy]
  exact congrArg not (h d.sy p)

/-- The first flip-flop holds the pin's level (R171). -/
theorem Debouncer.shift_sy_zero (p : Bool) (d : Debouncer) : (d.shift p).sy.getLsbD 0 = p := by
  have h : ∀ (x : BitVec 2) (p : Bool), (x.extractLsb' 0 1 ++ BitVec.ofBool p).getLsbD 0 = p := by decide
  exact h d.sy p

/-- When a poll fires (R173, R175). -/
theorem Debouncer.fires_iff (w : Nat) (n : Nat) (d : Debouncer) :
    d.fires w n = true ↔ d.pressed = true ∧ d.lvl = false ∧ 200 < subW w n d.tf := by
  simp only [Debouncer.fires, Bool.and_eq_true, decide_eq_true_eq, Bool.not_eq_true', and_assoc]
  rfl

/-- When the gate is due (R202). -/
theorem State.gateDue_iff (s : State) : s.gateDue = true ↔ 1000 ≤ subW s.params.wMs s.pins.now s.regs.lastSec := by
  simp only [State.gateDue, decide_eq_true_eq]
  rfl

end Sys2Proof.Machine
end

