-- ==== Sys2Proof/Laws/PerInstr.lean ====
section
/-! SUPPORT. Per instruction, family TableRow: the encoder gives every well-formed instruction a code that its row of
spec/opcode_table.json matches (mask, pattern and format). -/

namespace Sys2Proof.Laws.TableRow

/-- The code of a well-formed instruction matches the instruction's row. -/
def Statement (i : Instr) : Prop := i.wellFormed = true → i.row.covers (encode i) = true

theorem nop (arg : BitVec 6) : Statement (.nop arg) := by revert arg; unfold Statement; decide
theorem adv (arg : BitVec 6) : Statement (.adv arg) := by revert arg; unfold Statement; decide
theorem rsvSethH (low : BitVec 3) : Statement (.rsvSethH low) := by revert low; unfold Statement; decide
theorem rsvSethA5 (low : BitVec 5) : Statement (.rsvSethA5 low) := by revert low; unfold Statement; decide
theorem seth (h : BitVec 5) : Statement (.seth h) := by revert h; unfold Statement; decide
theorem rsvSetm (low : BitVec 2) : Statement (.rsvSetm low) := by revert low; unfold Statement; decide
theorem setm (m : BitVec 6) : Statement (.setm m) := by revert m; unfold Statement; decide
theorem rsvGetd (x : BitVec 1) : Statement (.rsvGetd x) := by revert x; unfold Statement; decide
theorem getd (p : Position) : Statement (.getd p) := by revert p; unfold Statement; decide
theorem geth : Statement .geth := by unfold Statement; decide
theorem getm : Statement .getm := by unfold Statement; decide
theorem rsvRsel101 (x : BitVec 1) : Statement (.rsvRsel101 x) := by revert x; unfold Statement; decide
theorem rsvRsel11 (x : BitVec 2) : Statement (.rsvRsel11 x) := by revert x; unfold Statement; decide
theorem gate : Statement .gate := by unfold Statement; decide
theorem pollH : Statement .pollH := by unfold Statement; decide
theorem pollM : Statement .pollM := by unfold Statement; decide
theorem muxDrive : Statement .muxDrive := by unfold Statement; decide
theorem muxOn : Statement .muxOn := by unfold Statement; decide
theorem muxOff : Statement .muxOff := by unfold Statement; decide
theorem muxReserved : Statement .muxReserved := by unfold Statement; decide
theorem poll (b : Button) : Statement (.poll b) := by cases b <;> (unfold Statement; decide)
theorem reset : Statement .reset := by unfold Statement; decide

end Sys2Proof.Laws.TableRow
end

