-- ==== Sys2Proof/Laws/Step.lean ====
section
/-! SUPPORT. What a step is: the operation of the next stimulus, run after the stimulus is sampled. -/

namespace Sys2Proof.Machine

/-- `{seq, phase}` decodes to the operation of `seq` and `phase` (R88, R89). -/
theorem decodeInternal_internalCode (r : Regs) : decodeInternal r.internalCode = r.operation := by
  unfold Regs.internalCode Regs.operation
  cases r.seq <;> cases r.phase <;> rfl

/-- Every stimulus selects an operation (R93). -/
theorem decode_code (r : Regs) (st : Stimulus) : decode (st.code r) = .ok (st.operation r) := by
  cases st with
  | edge v =>
    cases h : v.rst
    · simp only [Stimulus.code, Stimulus.operation, h, Bool.false_eq_true, if_false, decode]
      rw [decodeInternal_internalCode]
    · simp [Stimulus.code, Stimulus.operation, h, decode, decodeReset]
  | command rst w => cases rst <;> simp [Stimulus.code, Stimulus.operation, decode, decodeReset]
  | read sel => rfl
  | poll b p n => cases b <;> rfl

/-- A step runs the operation of the next stimulus. -/
theorem step_eq (s : State) : step s = exec (s.nextStimulus.operation s.regs) s.fetched := by
  simp only [step, State.nextCode, decode_code]

/-- The state an edge's operation runs in. -/
theorem State.fetched_edge {s : State} {v : Inputs} (h : s.EdgeNext v) :
    s.fetched = { s.takeStimulus with pins := v.sampled s.params.wMs } := by
  simp only [State.EdgeNext] at h
  simp [State.fetched, h]

/-- An edge of the clock core without reset (R201). -/
theorem step_edge {s : State} {v : Inputs} (h : s.EdgeNext v) (hr : v.rst = false) :
    step s = exec s.regs.operation { s.takeStimulus with pins := v.sampled s.params.wMs } := by
  rw [step_eq, State.fetched_edge h]
  simp only [State.EdgeNext] at h
  simp [h, Stimulus.operation, hr]

/-- An edge with `rst = 1` is RESET (R260). -/
theorem step_edge_reset {s : State} {v : Inputs} (h : s.EdgeNext v) (hr : v.rst = true) :
    step s = exec .reset { s.takeStimulus with pins := v.sampled s.params.wMs } := by
  rw [step_eq, State.fetched_edge h]
  simp only [State.EdgeNext] at h
  simp [h, Stimulus.operation, hr]

/-- The registers as a step finds them: a poll of one instance alone finds that instance's pin held, every other stimulus
leaves them. -/
theorem State.fetched_regs (s : State) :
    s.fetched.regs = match s.nextStimulus with
      | .poll b p _ => s.regs.setDebouncer b { s.regs.debouncer b with sy := levelSync p }
      | _ => s.regs := by
  unfold State.fetched
  cases s.nextStimulus <;> simp

/-- Every operation answers a next state (R230). -/
theorem exec_next (i : Instr) (s : State) : ∃ t, exec i s = .next t := by
  cases i <;> exact ⟨_, rfl⟩

theorem Outcome.next_inj {s t : State} (h : (Host.Outcome.next s : Host.Outcome State Fault Refusal) = .next t) : s = t := by
  injection h

/-- A pin held at a level is seen at that level (R172). -/
@[simp] theorem levelSync_pressed (l : Bool) (n : Nat) (p : Bool) : (Debouncer.mk l n (levelSync p)).pressed = p := by
  cases p <;> simp [Debouncer.pressed, levelSync]

/-! ### Runs over edges -/

theorem edgeRun_singleton {v : Inputs} {s t : State} : EdgeRun [v] s t ↔ s.EdgeNext v ∧ step s = .next t := by
  simp [EdgeRun]

/-- A run ends with its last edge. -/
theorem edgeRun_snoc {vs : List Inputs} {v : Inputs} {s t : State} :
    EdgeRun (vs ++ [v]) s t ↔ ∃ u, EdgeRun vs s u ∧ EdgeRun [v] u t := by
  induction vs generalizing s with
  | nil => simp [EdgeRun]
  | cons w ws ih =>
    simp only [List.cons_append, EdgeRun]
    constructor
    · rintro ⟨h, u, hu, hr⟩
      obtain ⟨x, h1, h2⟩ := ih.mp hr
      exact ⟨x, ⟨h, u, hu, h1⟩, by simpa [EdgeRun] using h2⟩
    · rintro ⟨x, ⟨h, u, hu, h1⟩, h2⟩
      exact ⟨h, u, hu, ih.mpr ⟨x, h1, by simpa [EdgeRun] using h2⟩⟩

/-- An edge without reset runs the operation of `seq` and `phase` on the sampled inputs (R201). -/
theorem edge_exec {v : Inputs} {s t : State} (hr : v.rst = false) (h : EdgeRun [v] s t) :
    exec s.regs.operation { s.takeStimulus with pins := v.sampled s.params.wMs } = .next t := by
  obtain ⟨hv, hs⟩ := edgeRun_singleton.mp h
  rw [← step_edge hv hr]; exact hs

/-- An edge with `rst = 1` loads the reset values (R260). -/
theorem edge_reset {v : Inputs} {s t : State} (hr : v.rst = true) (h : EdgeRun [v] s t) : t.regs = Regs.reset := by
  obtain ⟨hv, hs⟩ := edgeRun_singleton.mp h
  rw [step_edge_reset hv hr] at hs
  injection hs with hs
  rw [← hs]

/-- What the multiplexer's registers and the digits are after an edge of the sweep without reset (R143 to R146, R208). -/
theorem sweep_edge {v : Inputs} {s t : State} (hr : v.rst = false) (h : EdgeRun [v] s t) (hq : s.regs.seq = .sweep) :
    t.params = s.params ∧ t.regs.bank = s.regs.bank ∧ t.regs.lastSec = s.regs.lastSec ∧
    (s.regs.phase = .drive → t.regs.seq = .sweep ∧ t.regs.pos = s.regs.pos ∧ t.regs.phase = .on ∧ t.regs.cnt = 0) ∧
    (s.regs.phase = .on → t.regs.seq = .sweep ∧ t.regs.pos = s.regs.pos ∧
      (s.params.dwellCyc - 1 ≤ s.regs.cnt → t.regs.phase = .off ∧ t.regs.cnt = 0) ∧
      (s.regs.cnt < s.params.dwellCyc - 1 → t.regs.phase = .on ∧ t.regs.cnt = s.regs.cnt + 1)) ∧
    (s.regs.phase = .off ∨ s.regs.phase = .reserved →
      (5 ≤ s.regs.pos.toNat → t.regs.seq = .gate ∧ t.regs.Idle) ∧
      (s.regs.pos.toNat < 5 → t.regs.seq = .sweep ∧ t.regs.pos = s.regs.pos + 1 ∧ t.regs.phase = .drive ∧
        t.regs.cnt = s.regs.cnt)) := by
  have he := edge_exec hr h
  cases hp : s.regs.phase <;> simp only [Regs.operation, hq, hp] at he <;> (injection he with he; subst he)
  · simp [hq]
  · by_cases hc : s.params.dwellCyc - 1 ≤ s.regs.cnt
    · simp [hc, hq]
    · simp [hc, hq, hp]
  · by_cases hc : 5 ≤ s.regs.pos.toNat
    · simp [Regs.leavePosition, hc, Regs.Idle]
    · simp [Regs.leavePosition, hc, hq]
  · by_cases hc : 5 ≤ s.regs.pos.toNat
    · simp [Regs.leavePosition, hc, Regs.Idle]
    · simp [Regs.leavePosition, hc, hq]

/-- No operation touches the stimuli to come. -/
theorem exec_pending {i : Instr} {s t : State} (h : exec i s = .next t) : t.pending = s.pending := by
  cases i <;> (injection h with h; subst h; rfl)

/-- Scripted edges can be run: a run over them exists (R230). -/
theorem edgeRun_exists (vs : List Inputs) (rest : List Stimulus) (s : State)
    (h : s.pending = vs.map Stimulus.edge ++ rest) : ∃ t, EdgeRun vs s t ∧ t.pending = rest := by
  induction vs generalizing s with
  | nil => exact ⟨s, rfl, by simpa using h⟩
  | cons v vs ih =>
    obtain ⟨u, hu⟩ := exec_next (s.nextStimulus.operation s.regs) s.fetched
    have hn : s.EdgeNext v := by
      show s.nextStimulus = .edge v
      unfold State.nextStimulus; rw [h]; rfl
    have hp : u.pending = vs.map Stimulus.edge ++ rest := by
      rw [exec_pending hu, State.fetched_edge hn]
      simp [State.takeStimulus, h]
    obtain ⟨t, ht, hr⟩ := ih u hp
    exact ⟨t, ⟨hn, u, by rw [step_eq]; exact hu, ht⟩, hr⟩

/-- In an invariant state the dwell counter fits its width (R20, D34). -/
theorem State.Inv.cnt_fits {s : State} (h : s.Inv) : s.regs.cnt < 2 ^ Config.cntW s.params := by
  have hc : s.regs.cnt < s.params.dwellCyc := h.2.2.2.2.1
  have h1 : s.params.dwellCyc ≤ 2 ^ Nat.clog 2 s.params.dwellCyc := Nat.le_pow_clog (by norm_num) _
  have h2 : 2 ^ Nat.clog 2 s.params.dwellCyc ≤ 2 ^ Config.cntW s.params :=
    Nat.pow_le_pow_right (by norm_num) (le_max_right _ _)
  omega

end Sys2Proof.Machine
end

