-- ==== Sys2Proof/Tests/Slice0.lean ====
section
/-! SUPPORT. The model's own tests. The expected results are those of spec/95_test_vectors.md (S and V numbers), of the
rules' own examples, or of words written out from the tables of spec/30_encoding.md. After them, for every statement with
hypotheses, a witness that meets them. -/

namespace Sys2Proof.Tests

open Sys2Proof.Machine

/-- A state with the given digits; `W_MS = 32`, `DWELL_CYC = 2`, every other register at its reset value. -/
def mk (b : Bank) : State := ⟨⟨32, 2⟩, { Regs.reset with bank := b }, Inputs.idle, 0, false, [], 0⟩

/-- The bank `(1,2,3,4,5,6)` of the vectors. -/
def base : Bank := ⟨1, 2, 3, 4, 5, 6⟩

/-- An input vector without reset and with both buttons released. -/
def quiet (now : Nat) : Inputs := ⟨false, now, true, true⟩

/-- What one stimulus makes of a state, seen through an observation. -/
def after {α : Type} (st : Stimulus) (s : State) (f : State → α) : Option α :=
  match step { s with pending := [st] } with
  | .next t => some (f t)
  | .fault _ => none
  | .refused _ => none

/-- The digits after a command word to the bank alone. -/
def cmdBank (w : CommandWord) (b : Bank) : Option Bank := after (.command false w) (mk b) (fun t => t.regs.bank)

/-- The value of a read. -/
def readOf (sel : ReadSelect) (b : Bank) : Option Nat := after (.read sel) (mk b) (fun t => t.rdata.toNat)

/-- A debouncer alone: width, `lvl`, `tf`. -/
def debState (w : Nat) (lvl : Bool) (tf : Nat) : State :=
  { mk Bank.zero with params := ⟨w, 2⟩, regs := { Regs.reset with hour := ⟨lvl, tf, 0b11⟩ } }

/-- `fire`, `lvl`, `tf` after a poll of the hour instance. -/
def pollOut (w : Nat) (lvl : Bool) (tf : Nat) (pressed : Bool) (now : Nat) : Option (Bool × Bool × Nat) :=
  after (.poll .hour pressed now) (debState w lvl tf) (fun t => (t.fire, t.regs.hour.lvl, t.regs.hour.tf))

/-- A GATE cycle: `last_sec` and the seconds units after it, from `00:00:00`. -/
def gateOut (w last now : Nat) : Option (Nat × Nat × SeqState) :=
  after (.edge (quiet now)) { mk Bank.zero with params := ⟨w, 2⟩, regs := { Regs.reset with lastSec := last } }
    (fun t => (t.regs.lastSec, t.regs.bank.F.toNat, t.regs.seq))

/-- A state in the sweep. -/
def sweepState (b : Bank) (pos : Position) (ph : Phase) (cnt : Nat) : State :=
  { mk b with regs := { Regs.reset with bank := b, seq := .sweep, pos := pos, phase := ph, cnt := cnt } }

/-- `seq`, `pos`, `phase`, `cnt` after an edge without reset. -/
def muxOut (s : State) : Option (SeqState × Nat × Phase × Nat) :=
  after (.edge (quiet 0)) s (fun t => (t.regs.seq, t.regs.pos.toNat, t.regs.phase, t.regs.cnt))

/-- A POLL cycle at `now = 1000` whose button reads pressed and was released before. -/
def pressState (q : SeqState) (b : Bank) : State :=
  { mk b with regs := { Regs.reset with
      bank := b
      seq := q
      hour := { Debouncer.released with sy := 0b00 }
      minute := { Debouncer.released with sy := 0b00 } } }

/-! ### WellFormed: the ill-formed terms are refused -/

theorem test_wellFormed_seth24 : (Instr.seth 24).wellFormed = false := by decide
theorem test_wellFormed_seth23 : (Instr.seth 23).wellFormed = true := by decide
theorem test_wellFormed_setm60 : (Instr.setm 60).wellFormed = false := by decide
theorem test_wellFormed_setm59 : (Instr.setm 59).wellFormed = true := by decide
theorem test_wellFormed_getd6 : (Instr.getd 6).wellFormed = false := by decide
theorem test_wellFormed_getd5 : (Instr.getd 5).wellFormed = true := by decide

/-! ### Decoding: a word of every constructor, written out from R81 to R89, R173, R260 -/

theorem test_decode_nop : decodeCommand 0b00_111111 = .nop 0b111111 := by decide
theorem test_decode_adv : decodeCommand 0b01_011111 = .adv 0b011111 := by decide
theorem test_decode_rsvSethH : decodeCommand 0b10_011_010 = .rsvSethH 0b010 := by decide
theorem test_decode_rsvSethA5 : decodeCommand 0b10_1_10111 = .rsvSethA5 0b10111 := by decide
theorem test_decode_seth : decodeCommand 0b10_0_10111 = .seth 23 := by decide
theorem test_decode_rsvSetm : decodeCommand 0b11_1111_00 = .rsvSetm 0b00 := by decide
theorem test_decode_setm : decodeCommand 0b11_111011 = .setm 59 := by decide
theorem test_decode_rsvGetd : decodeRead 0b0111 = .rsvGetd 1 := by decide
theorem test_decode_getd : decodeRead 0b0101 = .getd 5 := by decide
theorem test_decode_geth : decodeRead 0b1000 = .geth := by decide
theorem test_decode_getm : decodeRead 0b1001 = .getm := by decide
theorem test_decode_rsvRsel101 : decodeRead 0b1011 = .rsvRsel101 1 := by decide
theorem test_decode_rsvRsel11 : decodeRead 0b1110 = .rsvRsel11 2 := by decide
theorem test_decode_gate : decodeInternal 0b00_00 = .gate := by decide
theorem test_decode_pollH : decodeInternal 0b01_00 = .pollH := by decide
theorem test_decode_pollM : decodeInternal 0b10_00 = .pollM := by decide
theorem test_decode_drive : decodeInternal 0b11_00 = .muxDrive := by decide
theorem test_decode_on : decodeInternal 0b11_01 = .muxOn := by decide
theorem test_decode_off : decodeInternal 0b11_10 = .muxOff := by decide
theorem test_decode_rsvPhase : decodeInternal 0b11_11 = .muxReserved := by decide
theorem test_decode_pollHour : (decode (.poll 0b0100)).toOption = some (.poll .hour) := by decide
theorem test_decode_pollMinute : (decode (.poll 0b1000)).toOption = some (.poll .minute) := by decide
theorem test_decode_poll_gate : (decode (.poll 0b0000)).toOption = none := by decide
theorem test_decode_reset : (decode (.rst 1)).toOption = some .reset := by decide
theorem test_decode_rst0 : (decode (.rst 0)).toOption = none := by decide

/-! ### Words presented as the host presents them -/

theorem test_tableWord_seth : decodeTableWord 8 0x97 = some (.seth 23) := by decide
theorem test_tableWord_geth : decodeTableWord 4 0x8 = some .geth := by decide
theorem test_tableWord_reset : decodeTableWord 1 1 = some .reset := by decide
theorem test_tableWord_length : decodeTableWord 16 0 = none := by decide
theorem test_fetchWord_seth : ∃ t, step (State.reset.withFetchWord 8 0x97) = .next t ∧ t.regs.bank = ⟨2, 3, 0, 0, 0, 0⟩ :=
  ⟨_, rfl, by decide⟩
theorem test_fetchWord_geth : ∃ t, step ((mk ⟨2, 3, 5, 9, 5, 9⟩).withFetchWord 4 0b1000) = .next t ∧ t.rdata = 23 :=
  ⟨_, rfl, by decide⟩
theorem test_fetchWord_reset : ∃ t, step ((mk base).withFetchWord 1 1) = .next t ∧ t.regs = Regs.reset :=
  ⟨_, rfl, by decide⟩

/-! ### Elapsed time (S7) -/

theorem test_subW_wrap : subW 32 0x00000010 0xFFFFFFF0 = 32 := by decide

/-! ### ADV (V14, V9) and outside the invariant (V21, V22) -/

theorem test_adv_midnight : cmdBank 0x40 ⟨2, 3, 5, 9, 5, 9⟩ = some ⟨0, 0, 0, 0, 0, 0⟩ := by decide
theorem test_adv_ripple : cmdBank 0x40 ⟨1, 9, 5, 9, 5, 9⟩ = some ⟨2, 0, 0, 0, 0, 0⟩ := by decide
theorem test_advArg : cmdBank 0x7F base = some ⟨1, 2, 3, 4, 5, 7⟩ := by decide
theorem test_adv_offB5 : (Bank.adv ⟨2, 5, 5, 9, 5, 9⟩) = ⟨2, 6, 0, 0, 0, 0⟩ := by decide
theorem test_adv_offB9 : (Bank.adv ⟨2, 9, 5, 9, 5, 9⟩) = ⟨3, 0, 0, 0, 0, 0⟩ := by decide
theorem test_adv_offF15 : (Bank.adv ⟨0, 0, 0, 0, 0, 15⟩) = ⟨0, 0, 0, 0, 0, 0⟩ := by decide

/-! ### SETH, SETM, NOP (V25, V30 to V35, V39 to V41, V43) -/

theorem test_nop : cmdBank 0x3F base = some base := by decide
theorem test_seth23 : cmdBank 0x97 base = some ⟨2, 3, 3, 4, 5, 6⟩ := by decide
theorem test_seth17 : cmdBank 0x91 base = some ⟨1, 7, 3, 4, 5, 6⟩ := by decide
theorem test_rsvSethH24 : cmdBank 0x98 base = some base := by decide
theorem test_rsvSethH31 : cmdBank 0x9F base = some base := by decide
theorem test_rsvSethA5 : cmdBank 0xB7 base = some base := by decide
theorem test_setm59 : cmdBank 0xFB base = some ⟨1, 2, 5, 9, 5, 6⟩ := by decide
theorem test_setm_noCarry : cmdBank 0xC0 ⟨0, 7, 5, 9, 4, 2⟩ = some ⟨0, 7, 0, 0, 4, 2⟩ := by decide
theorem test_rsvSetm60 : cmdBank 0xFC base = some base := by decide
theorem test_rsvSetm63 : cmdBank 0xFF base = some base := by decide

/-! ### Reads (V44, V49 to V54, V57 to V59) -/

theorem test_getd0 : readOf 0b0000 base = some 1 := by decide
theorem test_getd5 : readOf 0b0101 base = some 6 := by decide
theorem test_rsvGetd : readOf 0b0110 base = some 0 := by decide
theorem test_geth : readOf 0b1000 base = some 12 := by decide
theorem test_geth_truncated : readOf 0b1000 ⟨3, 5, 0, 0, 0, 0⟩ = some 3 := by decide
theorem test_getm : readOf 0b1001 base = some 34 := by decide
theorem test_getm_truncated : readOf 0b1001 ⟨0, 0, 9, 9, 0, 0⟩ = some 35 := by decide
theorem test_rsvRsel101 : readOf 0b1010 base = some 0 := by decide
theorem test_rsvRsel11 : readOf 0b1111 base = some 0 := by decide

/-! ### GATE (V60, V61, V64, V65) -/

theorem test_gate_999 : gateOut 32 0 999 = some (0, 0, .pollH) := by decide
theorem test_gate_1000 : gateOut 32 0 1000 = some (1000, 1, .pollH) := by decide
theorem test_gate_wrap : gateOut 16 65000 464 = some (464, 1, .pollH) := by decide
theorem test_gate_wrap_early : gateOut 16 65000 463 = some (65000, 0, .pollH) := by decide

/-! ### POLL (V67 to V70, V72, V73) -/

theorem test_poll_200 : pollOut 32 false 1000 true 1200 = some (false, true, 1000) := by decide
theorem test_poll_201 : pollOut 32 false 1000 true 1201 = some (true, true, 1201) := by decide
theorem test_poll_held : pollOut 32 true 0 true 5000 = some (false, true, 0) := by decide
theorem test_poll_release : pollOut 32 true 0 false 5000 = some (false, false, 0) := by decide
theorem test_poll_wrap200 : pollOut 16 false 65400 true 64 = some (false, true, 65400) := by decide
theorem test_poll_wrap201 : pollOut 16 false 65400 true 65 = some (true, true, 65) := by decide

/-! ### The synchroniser (V76) and the button actions (V77 to V80) -/

theorem test_sync : after (.edge ⟨false, 0, false, true⟩) (mk base) (fun t => (t.regs.hour.sy, t.regs.minute.sy)) =
    some (0b10, 0b11) := by decide
theorem test_pollH_23 : after (.edge (quiet 1000)) (pressState .pollH ⟨2, 3, 1, 0, 0, 5⟩)
    (fun t => (t.regs.bank, t.regs.seq, t.regs.hour.tf)) = some (⟨0, 0, 1, 0, 0, 5⟩, .pollM, 1000) := by decide
theorem test_pollH_9 : after (.edge (quiet 1000)) (pressState .pollH ⟨0, 9, 0, 0, 0, 0⟩)
    (fun t => t.regs.bank) = some ⟨1, 0, 0, 0, 0, 0⟩ := by decide
theorem test_pollM_59 : after (.edge (quiet 1000)) (pressState .pollM ⟨0, 7, 5, 9, 3, 0⟩)
    (fun t => (t.regs.bank, t.regs.seq, t.regs.pos)) = some (⟨0, 7, 0, 0, 3, 0⟩, .sweep, 0) := by decide
theorem test_pollM_9 : after (.edge (quiet 1000)) (pressState .pollM ⟨1, 1, 0, 9, 0, 0⟩)
    (fun t => t.regs.bank) = some ⟨1, 1, 1, 0, 0, 0⟩ := by decide

/-! ### The multiplexer (V81 cycles k+7 to k+10 and k+26, V84, V85) -/

theorem test_drive : muxOut (sweepState base 1 .drive 0) = some (.sweep, 1, .on, 0) := by decide
theorem test_on_first : muxOut (sweepState base 1 .on 0) = some (.sweep, 1, .on, 1) := by decide
theorem test_on_last : muxOut (sweepState base 1 .on 1) = some (.sweep, 1, .off, 0) := by decide
theorem test_off : muxOut (sweepState base 1 .off 0) = some (.sweep, 2, .drive, 0) := by decide
theorem test_off_last : muxOut (sweepState base 5 .off 0) = some (.gate, 0, .drive, 0) := by decide
theorem test_rsvPhase : muxOut (sweepState base 2 .reserved 0) = some (.sweep, 3, .drive, 0) := by decide
theorem test_outputs_on : (sweepState base 2 .on 1).en = 0b000100 ∧ (sweepState base 2 .on 1).bcd = 3 := by decide
theorem test_outputs_off : (sweepState base 2 .off 0).en = 0 ∧ (sweepState base 2 .off 0).bcd = 3 := by decide
theorem test_outputs_reserved : (sweepState base 2 .reserved 0).en = 0 ∧ (sweepState base 6 .on 0).en = 0 := by decide

/-! ### Reset (V86) -/

theorem test_reset : after (.edge ⟨true, 5, false, false⟩)
    { sweepState base 4 .on 1 with regs := { (sweepState base 4 .on 1).regs with lastSec := 77, hour := ⟨true, 5, 0⟩ } }
    (fun t => (t.regs, t.en, t.bcd)) =
      some (⟨⟨0, 0, 0, 0, 0, 0⟩, .gate, 0, .drive, 0, 0, ⟨false, 0, 0b11⟩, ⟨false, 0, 0b11⟩⟩, 0, 0) := by decide
theorem test_reset_over_command : after (.command true 0x97) (mk base) (fun t => t.regs.bank) =
    some ⟨0, 0, 0, 0, 0, 0⟩ := by decide

/-! ### Programs (R91, R92) -/

theorem test_assemble_sett : assemble [.sett 23 59, .word 0x98, .getd 5] =
    some [.command false 0x97, .command false 0xFB, .command false 0x98, .read 0b0101] := by decide
theorem test_assemble_error : assemble [.seth 24] = none ∧ assemble [.setm 60] = none ∧ assemble [.getd 6] = none := by
  decide
theorem test_parse : parseProgram
    [['S', 'E', 'T', 'H', ' ', '2', '3', ' ', ';', ' ', 'x'], [' '], ['.', 'w', 'o', 'r', 'd', ' ', '0', 'x', 'A', '3'],
      ['S', 'E', 'T', 'T', ' ', '2', '3', ':', '5', '9']] =
    some [.seth 23, .word 0xA3, .sett 23 59] := by decide

/-! ### Witnesses: for every statement with hypotheses, states and operands that meet them -/

/-- A state with the given edges to come. -/
def scripted (s : State) (vs : List Inputs) : State := { s with pending := vs.map Stimulus.edge }

/-- An edge of it can be run. -/
theorem scripted_run (s : State) (vs : List Inputs) : ∃ t, EdgeRun vs (scripted s vs) t :=
  (edgeRun_exists vs [] (scripted s vs) (by simp [scripted])).imp fun _ h => h.1

/-- The state after some edges. -/
def afterEdges : List Inputs → State → State
  | [], s => s
  | _ :: vs, s =>
    match step s with
    | .next u => afterEdges vs u
    | .fault _ => s
    | .refused _ => s

theorem edgeRun_afterEdges {vs : List Inputs} {s t : State} (h : EdgeRun vs s t) : afterEdges vs s = t := by
  induction vs generalizing s with
  | nil => exact h
  | cons v vs ih =>
    obtain ⟨-, u, hu, hr⟩ := h
    simp only [afterEdges, hu]
    exact ih hr

theorem edgeRun_of_pending (vs : List Inputs) (rest : List Stimulus) (s : State)
    (h : s.pending = vs.map Stimulus.edge ++ rest) : EdgeRun vs s (afterEdges vs s) := by
  obtain ⟨t, ht, -⟩ := edgeRun_exists vs rest s h
  rw [edgeRun_afterEdges ht]; exact ht

theorem witness_DecodeOfEncode : (Instr.seth 23).wellFormed = true ∧ (Instr.setm 59).wellFormed = true ∧
    (Instr.getd 5).wellFormed = true ∧ (Instr.poll .minute).wellFormed = true := by decide

theorem witness_EveryWordDecodesToItsTableRow : tableRow (.seqph 0b0100) = some ⟨"POLL_H", .seqph4, 0x0F, 0x04⟩ ∧
    tableRow (.seqph 0b1111) = some ⟨"RSV_PHASE", .seqph4, 0x0F, 0x0F⟩ := by decide

theorem witness_ReservedCommandWordsAreIgnored :
    (0x98 ≤ (0x98 : CommandWord).toNat ∧ (0x98 : CommandWord).toNat ≤ 0xBF) ∧
    (0x98 ≤ (0xBF : CommandWord).toNat ∧ (0xBF : CommandWord).toNat ≤ 0xBF) ∧ 0xFC ≤ (0xFC : CommandWord).toNat ∧
    0xFC ≤ (0xFF : CommandWord).toNat ∧ (0x3F : CommandWord).toNat ≤ 0x3F ∧
    (0x40 ≤ (0x40 : CommandWord).toNat ∧ (0x7F : CommandWord).toNat ≤ 0x7F) := by decide

theorem witness_StepRunsTheDecodedOperation :
    (∃ (s : State) (i : Instr), decode s.nextCode = .ok i ∧ s.pending = .edge (quiet 0) :: [] ∧ i = Instr.gate) ∧
    (∃ s : State, s.pending = .command true 0x97 :: []) ∧ (∃ s : State, s.pending = .read 0b1000 :: []) ∧
    (∃ s : State, s.pending = .poll .hour true 7 :: []) ∧ State.reset.pending = [] :=
  ⟨⟨scripted (mk base) [quiet 0], _, rfl, rfl, rfl⟩, ⟨{ mk base with pending := _ }, rfl⟩,
    ⟨{ mk base with pending := _ }, rfl⟩, ⟨{ mk base with pending := _ }, rfl⟩, rfl⟩

theorem witness_NopAndReservedSetsChangeNothing : 24 ≤ (24 : BitVec 5).toNat ∧ 24 ≤ (31 : BitVec 5).toNat ∧
    60 ≤ (60 : BitVec 6).toNat ∧ 60 ≤ (63 : BitVec 6).toNat := by decide

theorem witness_AdvIsTheHoursModulo24Operation : (mk ⟨2, 3, 5, 9, 5, 9⟩).regs.bank.Inv ∧ (mk base).regs.bank.Inv := by
  decide

theorem witness_AdvHasPeriodOneDay : (mk ⟨2, 3, 5, 9, 5, 9⟩).regs.bank.Inv ∧ Bank.zero.Inv := by decide

theorem witness_SethSetsTheHoursDigits : (23 : BitVec 5).toNat ≤ 23 ∧ 23 < (24 : BitVec 5).toNat := by decide

theorem witness_SetmSetsTheMinutesDigits : (59 : BitVec 6).toNat ≤ 59 ∧ 59 < (60 : BitVec 6).toNat := by decide

theorem witness_DigitReadsReturnTheDigit : (5 : Position).toNat ≤ 5 ∧ 6 ≤ (6 : Position).toNat ∧
    6 ≤ (7 : Position).toNat := by decide

theorem witness_PairReadsReturnTheNumber : (mk ⟨2, 3, 5, 9, 0, 0⟩).regs.bank.Inv := by decide

theorem witness_BankInvariantIsPreserved :
    (∃ s t, s.regs.bank.Inv ∧ exec (.adv 0) s = .next t) ∧ (∃ s t, s.regs.bank.Inv ∧ step s = .next t) ∧
    (Bank.mk 2 3 5 9 5 9).Inv :=
  ⟨⟨mk ⟨1, 9, 5, 9, 5, 9⟩, _, by decide, rfl⟩, ⟨scripted (mk base) [quiet 1000], _, by decide, rfl⟩, by decide⟩

theorem witness_SetThenGetReturnsTheOperand : (23 : BitVec 5).toNat ≤ 23 ∧ (59 : BitVec 6).toNat ≤ 59 := by decide

theorem witness_OnlyAdvSetsAndResetWriteDigits :
    (∃ t, exec (.adv 0) (mk base) = .next t ∧ t.regs.bank ≠ (mk base).regs.bank) ∧
    (∃ t, exec (.seth 23) (mk base) = .next t ∧ t.regs.bank ≠ (mk base).regs.bank) ∧
    (∃ t, exec (.setm 59) (mk base) = .next t ∧ t.regs.bank ≠ (mk base).regs.bank) ∧
    (∃ t, exec .reset (mk base) = .next t ∧ t.regs.bank ≠ (mk base).regs.bank) ∧
    (∃ s t, exec .gate s = .next t ∧ t.regs.bank ≠ s.regs.bank) ∧
    (∃ s t, exec .pollH s = .next t ∧ t.regs.bank ≠ s.regs.bank) ∧
    (∃ s t, exec .pollM s = .next t ∧ t.regs.bank ≠ s.regs.bank) :=
  ⟨⟨_, rfl, by decide⟩, ⟨_, rfl, by decide⟩, ⟨_, rfl, by decide⟩, ⟨_, rfl, by decide⟩,
    ⟨{ mk base with pins := quiet 1000 }, _, rfl, by decide⟩,
    ⟨{ pressState .pollH base with pins := quiet 1000 }, _, rfl, by decide⟩,
    ⟨{ pressState .pollM base with pins := quiet 1000 }, _, rfl, by decide⟩⟩

theorem witness_ElapsedTimeIsModularAndRelative :
    (2 ^ 11 - 1 < 2 ^ 11) ∧ (∃ t, Instr.gate ≠ .reset ∧ exec .gate (mk base) = .next t) :=
  ⟨by decide, _, by decide, rfl⟩

theorem witness_ReleaseAndHeldPressNeverFire :
    ((mk base).regs.debouncer .hour).pressed = false ∧
    ((pressState .pollH base).regs.debouncer .hour).pressed = true ∧ ((debState 32 true 0).regs.debouncer .hour).lvl = true ∧
    (∃ s t u, s.pending = .poll .hour true 1000 :: .poll .hour true 5000 :: [] ∧ step s = .next t ∧ step t = .next u) :=
  ⟨by decide, by decide, rfl, { mk base with pending := _ }, _, _, rfl, rfl, rfl⟩

/-- The boundary `d = 200` and `d = 201`, and an interval that wraps (R176). -/
theorem witness_SecondPressFiresAfterTheInterval :
    (∃ s s1 s2 s3 : State,
      s.pending = .poll .hour true 1000 :: .poll .hour false 1050 :: .poll .hour true (1000 + 200) :: [] ∧
      step s = .next s1 ∧ s1.fire = true ∧ step s1 = .next s2 ∧ step s2 = .next s3 ∧ 200 < 2 ^ s.params.wMs) ∧
    (∃ s s1 s2 s3 : State,
      s.pending = .poll .hour true 1000 :: .poll .hour false 1050 :: .poll .hour true (1000 + 201) :: [] ∧
      step s = .next s1 ∧ s1.fire = true ∧ step s1 = .next s2 ∧ step s2 = .next s3) ∧
    (∃ s s1 s2 s3 : State,
      s.pending = .poll .minute true 1000 :: .poll .minute false 1050 :: .poll .minute true (1000 + (2 ^ 32 + 100)) :: [] ∧
      step s = .next s1 ∧ s1.fire = true ∧ step s1 = .next s2 ∧ step s2 = .next s3) :=
  ⟨⟨{ mk base with pending := _ }, _, _, _, rfl, rfl, by decide, rfl, rfl, by decide⟩,
    ⟨{ mk base with pending := _ }, _, _, _, rfl, rfl, by decide, rfl, rfl⟩,
    ⟨{ mk base with pending := _ }, _, _, _, rfl, rfl, by decide, rfl, rfl⟩⟩

theorem witness_NoPressFiresInTheFirst200Ms :
    ∃ s : State, s.params.Wf ∧ (s.regs.debouncer .hour).tf = 0 ∧ s.pins.now ≤ 200 ∧
      (s.regs.debouncer .hour).pressed = true ∧ s.pins.now = 200 :=
  ⟨{ pressState .pollH base with pins := quiet 200 }, by decide, rfl, by decide, by decide, rfl⟩

theorem witness_PressedIsThePinTwoEdgesBefore :
    (∃ t, EdgeRun [⟨false, 0, false, true⟩] (scripted (mk base) [⟨false, 0, false, true⟩]) t) ∧
    (∃ t, EdgeRun [⟨false, 0, false, true⟩, quiet 0] (scripted (mk base) [⟨false, 0, false, true⟩, quiet 0]) t) :=
  ⟨scripted_run _ _, scripted_run _ _⟩

theorem witness_BetweenPollsTheLevelAndTimestampStay :
    ∃ t, exec .muxOn (sweepState base 1 .on 0) = .next t ∧ Instr.muxOn ≠ .reset ∧ Instr.muxOn ≠ .pollH ∧
      Instr.muxOn ≠ .poll .hour ∧ Instr.muxOn ≠ .pollM ∧ Instr.muxOn ≠ .poll .minute :=
  ⟨_, rfl, by decide⟩

theorem witness_HourActionChangesOnlyTheHours :
    ∃ s t : State, s.regs.bank.Inv ∧ exec .pollH s = .next t ∧ t.fire = true ∧ s.regs.bank.hh = 23 :=
  ⟨{ pressState .pollH ⟨2, 3, 1, 0, 0, 5⟩ with pins := quiet 1000 }, _, by decide, rfl, by decide, by decide⟩

theorem witness_MinuteActionDoesNotCarry :
    ∃ s t : State, s.regs.bank.Inv ∧ exec .pollM s = .next t ∧ t.fire = true ∧ s.regs.bank.mm = 59 :=
  ⟨{ pressState .pollM ⟨0, 7, 5, 9, 3, 0⟩ with pins := quiet 1000 }, _, by decide, rfl, by decide, by decide⟩

theorem witness_SequencerTakesNoOtherOrder :
    (∃ s t, EdgeRun [quiet 0] s t ∧ s.regs.seq = .sweep ∧ s.regs.phase = .off ∧ 5 ≤ s.regs.pos.toNat) ∧
    (∃ s t : State, (∀ v, s.nextStimulus ≠ .edge v) ∧ (∀ w, s.nextStimulus ≠ .command true w) ∧ step s = .next t) :=
  ⟨⟨scripted (sweepState base 5 .off 0) [quiet 0], _, ⟨rfl, _, rfl, rfl⟩, rfl, rfl, by decide⟩,
    ⟨{ mk base with pending := [.command false 0x40] }, _, (fun _ h => nomatch h),
      (fun _ h => nomatch h), rfl⟩⟩

theorem witness_SequencerDrivesTheCommandPort :
    (∃ s t, (quiet 1000).rst = false ∧ s.regs.seq = .gate ∧ EdgeRun [quiet 1000] s t) ∧
    (∃ s t, (quiet 0).rst = false ∧ s.regs.seq = .sweep ∧ EdgeRun [quiet 0] s t) ∧
    (∃ s : State, decodeCommand s.sequencerWord = .adv 0) ∧
    (∃ s : State, decodeCommand s.sequencerWord = .seth 2) ∧
    (∃ s : State, decodeCommand s.sequencerWord = .setm 35) :=
  ⟨⟨scripted (mk base) [quiet 1000], _, rfl, rfl, rfl, _, rfl, rfl⟩,
    ⟨scripted (sweepState base 1 .on 0) [quiet 0], _, rfl, rfl, rfl, _, rfl, rfl⟩,
    ⟨{ mk base with pins := quiet 1000 }, by decide⟩,
    ⟨{ pressState .pollH ⟨0, 1, 3, 4, 5, 6⟩ with pins := quiet 1000 }, by decide⟩,
    ⟨{ pressState .pollM base with pins := quiet 1000 }, by decide⟩⟩

/-- An edge at `now = 1000` with both buttons pressed. -/
def pressed1000 : Inputs := ⟨false, 1000, false, false⟩

theorem witness_IterationOrderIsAdvThenHourThenMinute :
    ∃ s s1 s2 s3 : State, NoReset [pressed1000, pressed1000, pressed1000] ∧ s.regs.seq = .gate ∧ s.regs.bank.Inv ∧
      EdgeRun [pressed1000] s s1 ∧ EdgeRun [pressed1000] s1 s2 ∧ EdgeRun [pressed1000] s2 s3 ∧
      s.fetched.gateDue = true ∧ s2.fire = true ∧ s3.fire = true :=
  ⟨scripted (pressState .gate ⟨2, 3, 5, 9, 5, 9⟩) [pressed1000, pressed1000, pressed1000], _, _, _, by decide, rfl,
    by decide, ⟨rfl, _, rfl, rfl⟩, ⟨rfl, _, rfl, rfl⟩, ⟨rfl, _, rfl, rfl⟩, by decide, by decide, by decide⟩

theorem witness_LastSecIsWrittenByGateOnly :
    ∃ t, exec .pollH (mk base) = .next t ∧ Instr.pollH ≠ .gate ∧ Instr.pollH ≠ .reset :=
  ⟨_, rfl, by decide⟩

/-- GATE at `now = 999`, the next GATE 21 edges later at `now = 1000` (`DWELL_CYC = 1`, `J = 1`). -/
def lateState : State :=
  { mk base with
    params := ⟨11, 1⟩
    pending := (List.replicate 21 (quiet 999)).map Stimulus.edge ++ [.edge (quiet 1000)] }

theorem witness_ConsecutiveSecondsAreAtMostOneIterationLate :
    ∃ g : State, NoReset (quiet 999 :: List.replicate 20 (quiet 999)) ∧ lateState.params.Wf ∧
      lateState.regs.seq = .gate ∧
      (quiet 999 :: List.replicate 20 (quiet 999)).length = 6 * lateState.params.dwellCyc + 15 ∧
      EdgeRun (quiet 999 :: List.replicate 20 (quiet 999)) lateState g ∧ lateState.fetched.gateDue = false ∧
      g.EdgeNext (quiet 1000) ∧
      (quiet 1000).now % 2 ^ lateState.params.wMs = (lateState.fetched.pins.now + 1) % 2 ^ lateState.params.wMs ∧
      999 + 1 < 2 ^ lateState.params.wMs ∧ g.fetched.gateDue = true :=
  ⟨_, by decide, by decide, rfl, by decide, edgeRun_of_pending _ [.edge (quiet 1000)] _ rfl, by decide, by decide,
    by decide, by decide, by decide⟩

theorem witness_DriveGoesOn : (sweepState base 2 .drive 0).regs.phase = .drive := rfl

/-- The first and the last edge of an ON phase of two cycles. -/
theorem witness_OnHoldsForTheDwell :
    (NoReset [quiet 0, quiet 0] ∧ (sweepState base 5 .on 0).params.Wf ∧ (sweepState base 5 .on 0).regs.seq = .sweep ∧
      (sweepState base 5 .on 0).regs.phase = .on ∧ (sweepState base 5 .on 0).regs.cnt = 0 ∧
      (sweepState base 5 .on 0).regs.pos.toNat ≤ 5) ∧
    (∃ t, EdgeRun [quiet 0] (scripted (sweepState base 5 .on 0) [quiet 0]) t) ∧
    [quiet 0].length < (sweepState base 5 .on 0).params.dwellCyc ∧
    (∃ t, EdgeRun [quiet 0, quiet 0] (scripted (sweepState base 5 .on 0) [quiet 0, quiet 0]) t) ∧
    [quiet 0, quiet 0].length = (sweepState base 5 .on 0).params.dwellCyc :=
  ⟨by decide, scripted_run _ _, by decide, scripted_run _ _, rfl⟩

theorem witness_OffMovesToTheNextPositionOrEndsTheSweep :
    (∃ s t : State, s.Inv ∧ step s = .next t ∧ s.regs.phase = .on) ∧
    (sweepState base 5 .off 0).regs.phase = .off ∧ (sweepState base 2 .reserved 0).regs.phase = .reserved :=
  ⟨⟨scripted (sweepState base 1 .on 1) [quiet 0], _, by decide, rfl, rfl⟩, rfl, rfl⟩

theorem witness_OutputsShowTheDigitOfThePosition :
    (sweepState base 5 .on 0).regs.pos = 5 ∧ 6 ≤ (sweepState base 6 .on 0).regs.pos.toNat := by decide

theorem witness_AtMostOneEnableIsAsserted : (sweepState base 5 .on 0).en.getLsbD 5 = true := by decide

theorem witness_BcdIsStableWhileEnabled :
    (∃ s t, (quiet 0).rst = false ∧ EdgeRun [quiet 0] s t ∧ s.en ≠ 0) ∧
    (∃ s t, (quiet 0).rst = false ∧ EdgeRun [quiet 0] s t ∧ t.en ≠ 0) :=
  ⟨⟨scripted (sweepState base 1 .on 1) [quiet 0], _, rfl, ⟨rfl, _, rfl, rfl⟩, by decide⟩,
    ⟨scripted (sweepState base 1 .drive 0) [quiet 0], _, rfl, ⟨rfl, _, rfl, rfl⟩, by decide⟩⟩

/-- A whole sweep, and one edge less. -/
theorem witness_SweepHasItsShape :
    (NoReset (List.replicate 24 (quiet 0)) ∧ (sweepState base 0 .drive 0).params.Wf ∧
      (sweepState base 0 .drive 0).regs.seq = .sweep ∧ (sweepState base 0 .drive 0).regs.Idle) ∧
    (∃ t, EdgeRun (List.replicate 24 (quiet 0)) (scripted (sweepState base 0 .drive 0) (List.replicate 24 (quiet 0))) t) ∧
    (List.replicate 24 (quiet 0)).length = 6 * ((sweepState base 0 .drive 0).params.dwellCyc + 2) ∧
    (∃ t, EdgeRun (List.replicate 23 (quiet 0)) (scripted (sweepState base 0 .drive 0) (List.replicate 23 (quiet 0))) t) ∧
    (List.replicate 23 (quiet 0)).length < 6 * ((sweepState base 0 .drive 0).params.dwellCyc + 2) :=
  ⟨by decide, scripted_run _ _, by decide, scripted_run _ _, by decide⟩

/-- A whole iteration, one edge less, and its first three lengths. -/
theorem witness_IterationLastsPCycles :
    (NoReset (List.replicate 27 (quiet 0)) ∧ (mk base).params.Wf ∧ (mk base).regs.seq = .gate) ∧
    (∃ t, EdgeRun (List.replicate 27 (quiet 0)) (scripted (mk base) (List.replicate 27 (quiet 0))) t) ∧
    (List.replicate 27 (quiet 0)).length = 6 * (mk base).params.dwellCyc + 15 ∧
    (∀ n, ∃ t, EdgeRun (List.replicate n (quiet 0)) (scripted (mk base) (List.replicate n (quiet 0))) t) ∧
    (0 < [quiet 0].length ∧ [quiet 0, quiet 0].length < 3 ∧ 3 ≤ [quiet 0, quiet 0, quiet 0].length ∧
      3 ≤ (List.replicate 26 (quiet 0)).length ∧ (List.replicate 26 (quiet 0)).length < 6 * (mk base).params.dwellCyc + 15) :=
  ⟨by decide, scripted_run _ _, by decide, fun _ => scripted_run _ _, by decide⟩

theorem witness_OutsideTheSweepNothingIsLit :
    ((mk base).Inv ∧ (mk base).regs.seq ≠ .sweep) ∧
    (∃ s t : State, s.Inv ∧ step s = .next t ∧ t.regs.seq ≠ .sweep) :=
  ⟨by decide, scripted (sweepState base 5 .off 0) [quiet 0], _, by decide, rfl, by decide⟩

theorem witness_ResetLoadsTheResetValues :
    (∃ (s : State) (v : Inputs), v.rst = true ∧ s.nextStimulus = .edge v) ∧
    (∃ (s : State) (w : CommandWord), s.nextStimulus = .command true w) :=
  ⟨⟨scripted (mk base) [⟨true, 0, true, true⟩], _, rfl, rfl⟩, ⟨{ mk base with pending := [.command true 0x97] }, _, rfl⟩⟩

theorem witness_NothingIsLitDuringReset :
    ∃ t, EdgeRun [⟨true, 0, true, true⟩] (scripted (sweepState base 4 .on 1) [⟨true, 0, true, true⟩]) t ∧
      ∀ v ∈ [(⟨true, 0, true, true⟩ : Inputs)], v.rst = true :=
  ⟨_, ⟨rfl, _, rfl, rfl⟩, by decide⟩

/-- `now` at 1000 and at 999. -/
theorem witness_FirstSecondAfterReset :
    (∃ s : State, s.regs = Regs.reset ∧ s.pins.now < 2 ^ s.params.wMs ∧ 1000 ≤ s.pins.now) ∧
    (∃ s : State, s.regs = Regs.reset ∧ s.pins.now < 2 ^ s.params.wMs ∧ s.pins.now < 1000) :=
  ⟨⟨{ mk Bank.zero with pins := quiet 1000 }, rfl, by decide, by decide⟩,
    ⟨{ mk Bank.zero with pins := quiet 999 }, rfl, by decide, by decide⟩⟩

theorem witness_ParametersAreFixed :
    (∃ t, exec .reset (mk base) = .next t) ∧ (∃ t, step (scripted (mk base) [quiet 0]) = .next t) :=
  ⟨⟨_, rfl⟩, ⟨_, rfl⟩⟩

theorem witness_InvariantIsKeptByEveryStep :
    ∃ s t : State, s.Inv ∧ step s = .next t ∧ s.regs.phase = .on :=
  ⟨scripted (sweepState ⟨2, 3, 5, 9, 5, 9⟩ 5 .on 1) [quiet 0], _, by decide, rfl, rfl⟩

end Sys2Proof.Tests
end

section
/-! How a stimulus is taken and what the step makes of it (00_scope.md R8, R9; log entry 3). -/

namespace Sys2Proof.Machine

theorem State.nextStimulus_of_cons {s : State} {st : Stimulus} {rest : List Stimulus} (h : s.pending = st :: rest) :
    s.nextStimulus = st := by
  simp only [State.nextStimulus, h]

theorem State.nextStimulus_of_nil {s : State} (h : s.pending = []) : s.nextStimulus = .edge (freeInputs s.draws) := by
  simp only [State.nextStimulus, h]

theorem State.takeStimulus_of_cons {s : State} {st : Stimulus} {rest : List Stimulus} (h : s.pending = st :: rest) :
    s.takeStimulus = { s with pending := rest } := by
  simp only [State.takeStimulus, h]

theorem State.takeStimulus_of_nil {s : State} (h : s.pending = []) :
    s.takeStimulus = { s with draws := s.draws + 1 } := by
  simp only [State.takeStimulus, h]

/-- The oldest scripted stimulus selects the next operation, with the registers as they stand before it. -/
theorem State.nextCode_of_cons {s : State} {st : Stimulus} {rest : List Stimulus} (h : s.pending = st :: rest) :
    s.nextCode = st.code s.regs := by
  rw [State.nextCode, State.nextStimulus_of_cons h]

/-- A scripted stimulus leaves the list and is presented; no free input is drawn. -/
theorem State.fetched_of_cons {s : State} {st : Stimulus} {rest : List Stimulus} (h : s.pending = st :: rest) :
    s.fetched = State.present { s with pending := rest } st := by
  rw [State.fetched, State.nextStimulus_of_cons h, State.takeStimulus_of_cons h]

/-- Log entry 3: with nothing scripted the code is that of an edge with free inputs. -/
theorem State.nextCode_of_nil {s : State} (h : s.pending = []) :
    s.nextCode = (Stimulus.edge (freeInputs s.draws)).code s.regs := by
  rw [State.nextCode, State.nextStimulus_of_nil h]

/-- Log entry 3: with nothing scripted an edge with free inputs is presented and the draw counted. -/
theorem State.fetched_of_nil {s : State} (h : s.pending = []) :
    s.fetched = State.present { s with draws := s.draws + 1 } (.edge (freeInputs s.draws)) := by
  rw [State.fetched, State.nextStimulus_of_nil h, State.takeStimulus_of_nil h]

theorem step_of_decode {s : State} {i : Instr} (h : decode s.nextCode = .ok i) : step s = exec i s.fetched := by
  simp only [step, h]

/-- Settles O7: for each kind of stimulus the code and the sampled state are those the stimulus itself gives, by the
equations of `Stimulus.code` and `State.present`. -/
theorem stepRunsTheDecodedOperation : Obligations.StepRunsTheDecodedOperation := by
  refine ⟨fun _ _ => step_of_decode, fun _ _ _ hEdge => ?_, fun _ _ _ _ hCommand => ?_, fun _ _ _ hRead => ?_,
    fun _ _ _ _ _ hPoll => ?_, fun _ hFree => ?_⟩
  · exact ⟨State.nextCode_of_cons hEdge, State.fetched_of_cons hEdge⟩
  · exact ⟨State.nextCode_of_cons hCommand, State.fetched_of_cons hCommand⟩
  · exact ⟨State.nextCode_of_cons hRead, State.fetched_of_cons hRead⟩
  · exact ⟨State.nextCode_of_cons hPoll, State.fetched_of_cons hPoll⟩
  · exact ⟨State.nextCode_of_nil hFree, State.fetched_of_nil hFree⟩

end Sys2Proof.Machine
end

section
/-! What each operation does to one kind of register, in every state: the parameters and the sampled inputs stay, the
digits and `last_sec` by an equation per operation, the timestamps by their two sources. -/

namespace Sys2Proof.Machine

/-! ### The operations of the sweep as one update -/

/-- R144: ON writes `phase` and `cnt`. -/
theorem exec_muxOn (s : State) :
    exec .muxOn s = .next (State.clocked { s with regs := { s.regs with
      phase := if s.params.dwellCyc - 1 ≤ s.regs.cnt then .off else s.regs.phase
      cnt := if s.params.dwellCyc - 1 ≤ s.regs.cnt then 0 else s.regs.cnt + 1 } } nopWord) := by
  simp only [exec, execMuxOn]; split <;> rfl

/-- R145: OFF writes `seq`, `pos`, `phase` and `cnt`. -/
theorem exec_muxOff (s : State) :
    exec .muxOff s = .next (State.clocked { s with regs := { s.regs with
      seq := if 5 ≤ s.regs.pos.toNat then .gate else s.regs.seq
      pos := if 5 ≤ s.regs.pos.toNat then 0 else s.regs.pos + 1
      phase := .drive
      cnt := if 5 ≤ s.regs.pos.toNat then 0 else s.regs.cnt } } nopWord) := by
  simp only [exec, execMuxOff, Regs.leavePosition]; split <;> rfl

/-- R146: the reserved phase steps as OFF does. -/
theorem exec_muxReserved (s : State) : exec .muxReserved s = exec .muxOff s := rfl

/-- An operation of the sweep leaves the digits, `last_sec` and both timestamps (R143 to R146, R205). -/
theorem exec_mux_frame {i : Instr} {s t : State}
    (hi : i = .muxDrive ∨ i = .muxOn ∨ i = .muxOff ∨ i = .muxReserved) (h : exec i s = .next t) :
    t.regs.bank = s.regs.bank ∧ t.regs.lastSec = s.regs.lastSec ∧
    ∀ b, (t.regs.debouncer b).tf = (s.regs.debouncer b).tf := by
  rcases hi with rfl | rfl | rfl | rfl
  on_goal 2 => rw [exec_muxOn] at h
  on_goal 3 => rw [exec_muxOff] at h
  on_goal 4 => rw [exec_muxReserved, exec_muxOff] at h
  all_goals
    injection h with h; subst h
    exact ⟨rfl, rfl, fun b => by cases b <;> rfl⟩

/-! ### Parameters and sampled inputs -/

/-- R35: no operation writes a parameter. -/
theorem exec_params {i : Instr} {s t : State} (h : exec i s = .next t) : t.params = s.params := by
  cases i <;> (injection h with h; subst h; rfl)

/-- No operation writes the inputs it found sampled. -/
theorem exec_pins {i : Instr} {s t : State} (h : exec i s = .next t) : t.pins = s.pins := by
  cases i <;> (injection h with h; subst h; rfl)

/-! ### The digits -/

/-- The digits after an operation (R24, R100, R201). -/
def State.bankAfter (s : State) : Instr → Bank
  | .adv _ => s.regs.bank.adv
  | .seth h => s.regs.bank.setHours h
  | .setm m => s.regs.bank.setMinutes m
  | .gate => s.regs.bank.apply s.gateWord
  | .pollH => s.regs.bank.apply s.pollHWord
  | .pollM => s.regs.bank.apply s.pollMWord
  | .reset => Bank.zero
  | .nop _ | .rsvSethH _ | .rsvSethA5 _ | .rsvSetm _ | .rsvGetd _ | .getd _ | .geth | .getm | .rsvRsel101 _
  | .rsvRsel11 _ | .muxDrive | .muxOn | .muxOff | .muxReserved | .poll _ => s.regs.bank

theorem exec_bank {i : Instr} {s t : State} (h : exec i s = .next t) : t.regs.bank = s.bankAfter i := by
  cases i with
  | poll b =>
    injection h with h; subst h
    exact Regs.setDebouncer_bank ..
  | muxDrive | muxOn | muxOff | muxReserved => exact (exec_mux_frame (by simp) h).1
  | _ => injection h with h; subst h; rfl

theorem State.apply_gateWord (s : State) :
    s.regs.bank.apply s.gateWord = if s.gateDue then s.regs.bank.adv else s.regs.bank := by
  unfold State.gateWord; split <;> rfl

theorem State.apply_pollHWord (s : State) :
    s.regs.bank.apply s.pollHWord =
      if s.fires .hour then s.regs.bank.setHours (BitVec.ofNat 5 ((s.regs.bank.readHours.toNat + 1) % 24))
      else s.regs.bank := by
  unfold State.pollHWord
  split
  · exact Bank.apply_nextHourWord _
  · rfl

theorem State.apply_pollMWord (s : State) :
    s.regs.bank.apply s.pollMWord =
      if s.fires .minute then s.regs.bank.setMinutes (BitVec.ofNat 6 ((s.regs.bank.readMinutes.toNat + 1) % 60))
      else s.regs.bank := by
  unfold State.pollMWord
  split
  · exact Bank.apply_nextMinuteWord _
  · rfl

/-- R106: SETH writes A and B only, whatever the operand is. -/
theorem Bank.setHours_frame (b : Bank) (h : BitVec 5) :
    b.setHours h = { b with A := (b.setHours h).A, B := (b.setHours h).B } := by
  unfold Bank.setHours; split <;> rfl

/-- R108: SETM writes C and D only, whatever the operand is. -/
theorem Bank.setMinutes_frame (b : Bank) (m : BitVec 6) :
    b.setMinutes m = { b with C := (b.setMinutes m).C, D := (b.setMinutes m).D } := by
  unfold Bank.setMinutes; split <;> rfl

theorem Bank.zero_inv : Bank.zero.Inv := by decide

/-- R114: every operation maps an invariant bank to one. -/
theorem State.bankAfter_inv {s : State} (hb : s.regs.bank.Inv) (i : Instr) : (s.bankAfter i).Inv := by
  cases i with
  | adv => exact Bank.adv_inv hb
  | seth h => exact Bank.setHours_inv hb h
  | setm m => exact Bank.setMinutes_inv hb m
  | gate | pollH | pollM => exact Bank.apply_inv hb _
  | reset => exact Bank.zero_inv
  | _ => exact hb

/-! ### `last_sec` and the timestamps -/

/-- R31: an operation other than GATE and reset leaves `last_sec`. -/
theorem exec_lastSec_of_ne {i : Instr} {s t : State} (h : exec i s = .next t) (hg : i ≠ .gate) (hr : i ≠ .reset) :
    t.regs.lastSec = s.regs.lastSec := by
  cases i with
  | gate => exact absurd rfl hg
  | reset => exact absurd rfl hr
  | poll b =>
    injection h with h; subst h
    exact Regs.setDebouncer_lastSec ..
  | muxDrive | muxOn | muxOff | muxReserved => exact (exec_mux_frame (by simp) h).2.1
  | _ => injection h with h; subst h; rfl

/-- R202: GATE stores the sampled `now` when a second is due. -/
theorem exec_gate_lastSec {s t : State} (h : exec .gate s = .next t) :
    t.regs.lastSec = if s.gateDue then s.pins.now else s.regs.lastSec := by
  injection h with h; subst h; rfl

/-- R260: RESET loads the reset values and touches nothing but the registers. -/
theorem exec_reset {s t : State} (h : exec .reset s = .next t) : t = { s with regs := Regs.reset } := by
  injection h with h; exact h.symm

/-- `last_sec` stays, or takes the sampled `now`, or 0 (R31). -/
theorem exec_lastSec_cases {i : Instr} {s t : State} (h : exec i s = .next t) :
    t.regs.lastSec = s.regs.lastSec ∨ t.regs.lastSec = s.pins.now ∨ t.regs.lastSec = 0 := by
  by_cases hg : i = .gate
  · subst hg
    rw [exec_gate_lastSec h]
    cases s.gateDue
    · exact .inl rfl
    · exact .inr (.inl rfl)
  · by_cases hr : i = .reset
    · subst hr
      rw [exec_reset h]
      exact .inr (.inr rfl)
    · exact .inl (exec_lastSec_of_ne h hg hr)

/-- R173: a poll keeps the timestamp or makes it the sampled `now`. -/
theorem Debouncer.polled_tf_cases (w n : Nat) (d : Debouncer) : (d.polled w n).tf = d.tf ∨ (d.polled w n).tf = n := by
  rw [Debouncer.polled_tf]
  cases d.fires w n
  · exact .inl rfl
  · exact .inr rfl

/-- A timestamp stays, or takes the sampled `now`, or 0 (R32, R173, R260). -/
theorem exec_tf_cases {i : Instr} {s t : State} (h : exec i s = .next t) (b : Button) :
    (t.regs.debouncer b).tf = (s.regs.debouncer b).tf ∨ (t.regs.debouncer b).tf = s.pins.now ∨
      (t.regs.debouncer b).tf = 0 := by
  cases i with
  | reset =>
    rw [exec_reset h]
    cases b <;> exact .inr (.inr rfl)
  | poll c =>
    injection h with h; subst h
    have hp := Debouncer.polled_tf_cases s.params.wMs s.pins.now (s.regs.debouncer c)
    cases b <;> cases c
    · exact hp.imp_right .inl
    · exact .inl rfl
    · exact .inl rfl
    · exact hp.imp_right .inl
  | pollH =>
    injection h with h; subst h
    cases b
    · exact (Debouncer.polled_tf_cases s.params.wMs s.pins.now s.regs.hour).imp_right .inl
    · exact .inl rfl
  | pollM =>
    injection h with h; subst h
    cases b
    · exact .inl rfl
    · exact (Debouncer.polled_tf_cases s.params.wMs s.pins.now s.regs.minute).imp_right .inl
  | muxDrive | muxOn | muxOff | muxReserved => exact .inl ((exec_mux_frame (by simp) h).2.2 b)
  | _ =>
    injection h with h; subst h
    cases b <;> exact .inl rfl

end Sys2Proof.Machine
end

section
/-! The registers of the sequencer and the multiplexer at a step: which operations leave them, and what an edge in each
state of `seq` makes of them (R27, R38). -/

namespace Sys2Proof.Machine

/-- Two register files that agree on the registers of the sequencer and the multiplexer. -/
structure Regs.SameSweep (r r' : Regs) : Prop where
  seq : r.seq = r'.seq
  pos : r.pos = r'.pos
  phase : r.phase = r'.phase
  cnt : r.cnt = r'.cnt

theorem Regs.SameSweep.trans {r r' r'' : Regs} (h : r.SameSweep r') (h' : r'.SameSweep r'') : r.SameSweep r'' :=
  ⟨h.seq.trans h'.seq, h.pos.trans h'.pos, h.phase.trans h'.phase, h.cnt.trans h'.cnt⟩

theorem Regs.setDebouncer_sameSweep (r : Regs) (b : Button) (d : Debouncer) : (r.setDebouncer b d).SameSweep r := by
  constructor <;> simp

/-- The operations given to the bank alone or to one debouncer alone (log entry 4). -/
def runsAlone : Instr → Bool
  | .nop _ | .adv _ | .rsvSethH _ | .rsvSethA5 _ | .seth _ | .rsvSetm _ | .setm _ | .rsvGetd _ | .getd _ | .geth | .getm
  | .rsvRsel101 _ | .rsvRsel11 _ | .poll _ => true
  | .gate | .pollH | .pollM | .muxDrive | .muxOn | .muxOff | .muxReserved | .reset => false

theorem runsAlone_decodeCommand (w : CommandWord) : runsAlone (decodeCommand w) = true := by
  unfold decodeCommand; split_ifs <;> rfl

theorem runsAlone_decodeRead (sel : ReadSelect) : runsAlone (decodeRead sel) = true := by
  unfold decodeRead; split_ifs <;> rfl

/-- A stimulus that is neither an edge of the clock core nor a reset of the bank runs on its part alone. -/
theorem runsAlone_operation (r : Regs) {st : Stimulus} (hEdge : ∀ v, st ≠ .edge v)
    (hReset : ∀ w, st ≠ .command true w) : runsAlone (st.operation r) = true := by
  cases st with
  | edge v => exact absurd rfl (hEdge v)
  | command rst w =>
    cases rst
    · exact runsAlone_decodeCommand w
    · exact absurd rfl (hReset w)
  | read sel => exact runsAlone_decodeRead sel
  | poll => rfl

theorem exec_sameSweep {i : Instr} {s t : State} (hi : runsAlone i = true) (h : exec i s = .next t) :
    t.regs.SameSweep s.regs := by
  cases i with
  | poll b =>
    injection h with h; subst h
    exact Regs.setDebouncer_sameSweep ..
  | gate | pollH | pollM | muxDrive | muxOn | muxOff | muxReserved | reset => exact absurd hi Bool.false_ne_true
  | _ => injection h with h; subst h; exact ⟨rfl, rfl, rfl, rfl⟩

/-- Sampling a stimulus writes neither the sequencer's nor the multiplexer's registers. -/
theorem State.fetched_sameSweep (s : State) : s.fetched.regs.SameSweep s.regs := by
  rw [State.fetched_regs]
  split
  · exact Regs.setDebouncer_sameSweep ..
  · exact ⟨rfl, rfl, rfl, rfl⟩

/-- R27: a command, a read or a poll alone writes neither the sequencer's nor the multiplexer's registers. -/
theorem step_sameSweep {s t : State} (hEdge : ∀ v, s.nextStimulus ≠ .edge v)
    (hReset : ∀ w, s.nextStimulus ≠ .command true w) (h : step s = .next t) : t.regs.SameSweep s.regs := by
  rw [step_eq] at h
  exact (exec_sameSweep (runsAlone_operation _ hEdge hReset) h).trans s.fetched_sameSweep

/-- R260: `rst = 1` given to the bank alone loads the reset values too (log entry 19). -/
theorem step_command_reset {s t : State} {w : CommandWord} (hw : s.nextStimulus = .command true w)
    (h : step s = .next t) : t.regs = Regs.reset := by
  rw [step_eq, hw] at h
  rw [exec_reset h]

/-- R202: POLL_H is next, and the multiplexer stays at rest. -/
theorem exec_gate_idle {s t : State} (h : exec .gate s = .next t) :
    t.regs.seq = .pollH ∧ (s.regs.Idle → t.regs.Idle) := by
  injection h with h; subst h; exact ⟨rfl, id⟩

/-- R203: POLL_M is next, and the multiplexer stays at rest. -/
theorem exec_pollH_idle {s t : State} (h : exec .pollH s = .next t) :
    t.regs.seq = .pollM ∧ (s.regs.Idle → t.regs.Idle) := by
  injection h with h; subst h; exact ⟨rfl, id⟩

/-- R204: the sweep is next, from rest whatever the multiplexer held. -/
theorem exec_pollM_idle {s t : State} (h : exec .pollM s = .next t) : t.regs.seq = .sweep ∧ t.regs.Idle := by
  injection h with h; subst h; exact ⟨rfl, rfl, rfl, rfl⟩

/-- What the sequencer's and the multiplexer's registers are after an edge outside the sweep without reset (R202 to
R204). -/
theorem outsideSweep_edge {v : Inputs} {s t : State} (hr : v.rst = false) (h : EdgeRun [v] s t) :
    (s.regs.seq = .gate → t.regs.seq = .pollH ∧ (s.regs.Idle → t.regs.Idle)) ∧
    (s.regs.seq = .pollH → t.regs.seq = .pollM ∧ (s.regs.Idle → t.regs.Idle)) ∧
    (s.regs.seq = .pollM → t.regs.seq = .sweep ∧ t.regs.Idle) := by
  have he := edge_exec hr h
  refine ⟨fun hq => ?_, fun hq => ?_, fun hq => ?_⟩ <;> simp only [Regs.operation, hq] at he
  · simpa only [State.takeStimulus_regs] using exec_gate_idle he
  · simpa only [State.takeStimulus_regs] using exec_pollH_idle he
  · exact exec_pollM_idle he

end Sys2Proof.Machine
end

section
/-! The invariant of a run in its parts, each kept by every step: the digits, the registers of the sweep, and the values
of width `W_MS`. -/

namespace Sys2Proof.Machine

/-- The part of the invariant about `seq`, `pos`, `phase` and `cnt` (R28, R29, R30, R38). -/
structure Regs.SweepInv (p : Params) (r : Regs) : Prop where
  pos_le : r.pos.toNat ≤ 5
  phase_ne : r.phase ≠ .reserved
  cnt_lt : r.cnt < p.dwellCyc
  cnt_zero : r.phase ≠ .on → r.cnt = 0
  rest : r.seq ≠ .sweep → r.Idle

/-- The part of the invariant about the values of width `W_MS` (R31, R32, R66). -/
structure State.TimesFit (s : State) : Prop where
  lastSec_lt : s.regs.lastSec < 2 ^ s.params.wMs
  tf_lt : ∀ b, (s.regs.debouncer b).tf < 2 ^ s.params.wMs
  now_lt : s.pins.now < 2 ^ s.params.wMs

theorem State.inv_iff (s : State) :
    s.Inv ↔ s.params.Wf ∧ s.regs.bank.Inv ∧ s.regs.SweepInv s.params ∧ s.TimesFit := by
  constructor
  · rintro ⟨hp, hb, hpos, hphase, hcnt, hzero, hrest, hsec, hhour, hminute, hnow⟩
    refine ⟨hp, hb, ⟨hpos, hphase, hcnt, hzero, hrest⟩, hsec, fun b => ?_, hnow⟩
    cases b
    · exact hhour
    · exact hminute
  · rintro ⟨hp, hb, ⟨hpos, hphase, hcnt, hzero, hrest⟩, hsec, htf, hnow⟩
    exact ⟨hp, hb, hpos, hphase, hcnt, hzero, hrest, hsec, htf .hour, htf .minute, hnow⟩

/-! ### The registers of the sweep -/

theorem Regs.reset_idle : Regs.reset.Idle := ⟨rfl, rfl, rfl⟩

/-- At rest the registers of the sweep meet the invariant, whatever `seq` is. -/
theorem Regs.Idle.sweepInv {p : Params} {r : Regs} (hp : p.Wf) (h : r.Idle) : r.SweepInv p := by
  obtain ⟨hpos, hphase, hcnt⟩ := id h
  exact {
    pos_le := by simp [hpos]
    phase_ne := by simp [hphase]
    cnt_lt := by rw [hcnt]; exact hp.2
    cnt_zero := fun _ => hcnt
    rest := fun _ => h }

theorem Regs.SameSweep.sweepInv {p : Params} {r r' : Regs} (h : r'.SameSweep r) (hr : r.SweepInv p) :
    r'.SweepInv p := by
  obtain ⟨hseq, hpos, hphase, hcnt⟩ := h
  constructor
  · exact hpos ▸ hr.pos_le
  · exact hphase ▸ hr.phase_ne
  · exact hcnt ▸ hr.cnt_lt
  · rw [hphase, hcnt]; exact hr.cnt_zero
  · rw [hseq, Regs.Idle, hpos, hphase, hcnt]; exact hr.rest

/-- Inside the sweep the multiplexer need not be at rest. -/
theorem Regs.sweepInv_of_sweep {p : Params} {r : Regs} (hseq : r.seq = .sweep) (hpos : r.pos.toNat ≤ 5)
    (hphase : r.phase ≠ .reserved) (hcnt : r.cnt < p.dwellCyc) (hzero : r.phase ≠ .on → r.cnt = 0) : r.SweepInv p :=
  ⟨hpos, hphase, hcnt, hzero, fun h => absurd hseq h⟩

/-- An edge of the sweep without reset: DRIVE and OFF enter their next phase with `cnt = 0`, ON counts up to
`DWELL_CYC - 1`, and the last position's OFF leaves the multiplexer at rest. -/
theorem sweep_edge_sweepInv {v : Inputs} {s t : State} (hr : v.rst = false) (h : EdgeRun [v] s t) (hp : s.params.Wf)
    (hq : s.regs.seq = .sweep) (hs : s.regs.SweepInv s.params) : t.regs.SweepInv s.params := by
  obtain ⟨-, -, -, hdrive, hon, hoff⟩ := sweep_edge hr h hq
  have hdwell : 0 < s.params.dwellCyc := hp.2
  cases hphase : s.regs.phase with
  | drive =>
    obtain ⟨hseq, hpos, hph, hcnt⟩ := hdrive hphase
    exact Regs.sweepInv_of_sweep hseq (hpos ▸ hs.pos_le) (by simp [hph]) (hcnt ▸ hdwell) fun _ => hcnt
  | on =>
    obtain ⟨hseq, hpos, hlast, hmore⟩ := hon hphase
    by_cases hc : s.params.dwellCyc - 1 ≤ s.regs.cnt
    · obtain ⟨hph, hcnt⟩ := hlast hc
      exact Regs.sweepInv_of_sweep hseq (hpos ▸ hs.pos_le) (by simp [hph]) (hcnt ▸ hdwell) fun _ => hcnt
    · obtain ⟨hph, hcnt⟩ := hmore (by omega)
      exact Regs.sweepInv_of_sweep hseq (hpos ▸ hs.pos_le) (by simp [hph]) (by omega) fun hne => absurd hph hne
  | off =>
    have hzero : s.regs.cnt = 0 := hs.cnt_zero (by simp [hphase])
    obtain ⟨hend, hnext⟩ := hoff (.inl hphase)
    by_cases h5 : 5 ≤ s.regs.pos.toNat
    · exact (hend h5).2.sweepInv hp
    · obtain ⟨hseq, hpos, hph, hcnt⟩ := hnext (by omega)
      have hpos' : t.regs.pos.toNat ≤ 5 := by rw [hpos, BitVec.toNat_add]; simp; omega
      exact Regs.sweepInv_of_sweep hseq hpos' (by simp [hph]) (by omega) fun _ => hcnt.trans hzero
  | reserved => exact absurd hphase hs.phase_ne

theorem edge_sweepInv {v : Inputs} {s t : State} (hr : v.rst = false) (h : EdgeRun [v] s t) (hp : s.params.Wf)
    (hs : s.regs.SweepInv s.params) : t.regs.SweepInv s.params := by
  obtain ⟨hgate, hpollH, hpollM⟩ := outsideSweep_edge hr h
  cases hq : s.regs.seq with
  | gate => exact ((hgate hq).2 (hs.rest (by simp [hq]))).sweepInv hp
  | pollH => exact ((hpollH hq).2 (hs.rest (by simp [hq]))).sweepInv hp
  | pollM => exact (hpollM hq).2.sweepInv hp
  | sweep => exact sweep_edge_sweepInv hr h hp hq hs

theorem step_sweepInv {s t : State} (hp : s.params.Wf) (hs : s.regs.SweepInv s.params) (h : step s = .next t) :
    t.regs.SweepInv s.params := by
  by_cases hEdge : ∃ v, s.EdgeNext v
  · obtain ⟨v, hv⟩ := hEdge
    have hrun : EdgeRun [v] s t := edgeRun_singleton.mpr ⟨hv, h⟩
    cases hr : v.rst
    · exact edge_sweepInv hr hrun hp hs
    · rw [edge_reset hr hrun]; exact Regs.reset_idle.sweepInv hp
  · by_cases hReset : ∃ w, s.nextStimulus = .command true w
    · obtain ⟨w, hw⟩ := hReset
      rw [step_command_reset hw h]; exact Regs.reset_idle.sweepInv hp
    · exact (step_sameSweep (not_exists.mp hEdge) (not_exists.mp hReset) h).sweepInv hs

/-! ### The values of width `W_MS` -/

theorem truncW_lt (w n : Nat) : truncW w n < 2 ^ w := Nat.mod_lt _ (Nat.two_pow_pos w)

/-- Every operation keeps the stored times in range: what it stores is the sampled `now` or 0. -/
theorem exec_timesFit {i : Instr} {s t : State} (hs : s.TimesFit) (h : exec i s = .next t) : t.TimesFit := by
  constructor <;> rw [exec_params h]
  · rcases exec_lastSec_cases h with e | e | e <;> rw [e]
    · exact hs.lastSec_lt
    · exact hs.now_lt
    · exact Nat.two_pow_pos _
  · intro b
    rcases exec_tf_cases h b with e | e | e <;> rw [e]
    · exact hs.tf_lt b
    · exact hs.now_lt
    · exact Nat.two_pow_pos _
  · rw [exec_pins h]; exact hs.now_lt

/-- Every stimulus is sampled at width `W_MS` (R66). -/
theorem State.present_timesFit {s : State} (hs : s.TimesFit) (st : Stimulus) : (s.present st).TimesFit := by
  obtain ⟨hsec, htf, hnow⟩ := hs
  cases st with
  | edge v => exact ⟨hsec, htf, truncW_lt _ v.now⟩
  | command => exact ⟨hsec, htf, hnow⟩
  | read => exact ⟨hsec, htf, hnow⟩
  | poll b pressed now =>
    refine ⟨?_, fun c => ?_, truncW_lt _ now⟩
    · simpa using hsec
    · have hh := htf .hour
      have hm := htf .minute
      cases b <;> cases c <;> assumption

theorem State.takeStimulus_timesFit {s : State} (hs : s.TimesFit) : s.takeStimulus.TimesFit := by
  obtain ⟨hsec, htf, hnow⟩ := hs
  constructor <;> simpa

theorem State.fetched_bank (s : State) : s.fetched.regs.bank = s.regs.bank := by
  rw [State.fetched_regs]
  split
  · exact Regs.setDebouncer_bank ..
  · rfl

/-! ### Every step -/

theorem step_params {s t : State} (h : step s = .next t) : t.params = s.params := by
  rw [step_eq] at h
  rw [exec_params h, State.fetched_params]

/-- R114: every step maps an invariant bank to one. -/
theorem step_bank_inv {s t : State} (hb : s.regs.bank.Inv) (h : step s = .next t) : t.regs.bank.Inv := by
  rw [step_eq] at h
  rw [exec_bank h]
  exact State.bankAfter_inv (s.fetched_bank ▸ hb) _

theorem step_timesFit {s t : State} (hs : s.TimesFit) (h : step s = .next t) : t.TimesFit := by
  rw [step_eq] at h
  exact exec_timesFit (State.present_timesFit (State.takeStimulus_timesFit hs) _) h

/-- Settles O50: each part of the invariant is kept by every step. -/
theorem invariantIsKeptByEveryStep : Obligations.InvariantIsKeptByEveryStep := by
  intro s t hs h
  obtain ⟨hp, hb, hsweep, htimes⟩ := s.inv_iff.mp hs
  have hparams : t.params = s.params := step_params h
  refine t.inv_iff.mpr ⟨hparams ▸ hp, step_bank_inv hb h, ?_, step_timesFit htimes h⟩
  rw [hparams]
  exact step_sweepInv hp hsweep h

/-- Settles O51: the registers of reset are at rest and hold only zeros, and the parameters are admissible whatever the
opaque constants are. -/
theorem resetMeetsTheInvariant : Obligations.ResetMeetsTheInvariant := by
  have hp : State.reset.params.Wf := ⟨Nat.le_add_left 11 _, Nat.le_add_left 1 _⟩
  have hpos : 0 < 2 ^ State.reset.params.wMs := Nat.two_pow_pos _
  refine State.reset.inv_iff.mpr ⟨hp, Bank.zero_inv, Regs.reset_idle.sweepInv hp, hpos, fun b => ?_, hpos⟩
  cases b
  · exact hpos
  · exact hpos

end Sys2Proof.Machine
end

section
/-! The statements about single registers: who writes the digits, `seq`, `last_sec` and the parameters, and what the
outputs are outside the sweep. -/

namespace Sys2Proof.Machine

/-- Settles O19: the digits after an operation are those of `State.bankAfter`, the old ones in every other case. -/
theorem onlyAdvSetsAndResetWriteDigits : Obligations.OnlyAdvSetsAndResetWriteDigits := by
  intro i s t h hne
  have hb := exec_bank h
  cases i with
  | reset => exact .inl rfl
  | adv arg => exact .inr (.inl ⟨arg, rfl⟩)
  | seth x =>
    refine .inr (.inr (.inl ⟨x, rfl, ?_⟩))
    rw [hb]; exact Bank.setHours_frame ..
  | setm m =>
    refine .inr (.inr (.inr (.inl ⟨m, rfl, ?_⟩)))
    rw [hb]; exact Bank.setMinutes_frame ..
  | gate =>
    replace hb := hb.trans s.apply_gateWord
    split at hb
    · exact .inr (.inr (.inr (.inr (.inl ⟨rfl, _, rfl, hb⟩))))
    · exact absurd hb hne
  | pollH =>
    replace hb := hb.trans s.apply_pollHWord
    split at hb
    · exact .inr (.inr (.inr (.inr (.inr (.inl ⟨rfl, _, _, rfl, hb⟩)))))
    · exact absurd hb hne
  | pollM =>
    replace hb := hb.trans s.apply_pollMWord
    split at hb
    · exact .inr (.inr (.inr (.inr (.inr (.inr ⟨rfl, _, _, rfl, hb⟩)))))
    · exact absurd hb hne
  | _ => exact absurd hb hne

/-- R27: inside the sweep `seq` stays until the OFF, or the reserved phase, of the last position. -/
theorem sweep_edge_seq {v : Inputs} {s t : State} (hr : v.rst = false) (h : EdgeRun [v] s t)
    (hq : s.regs.seq = .sweep) :
    t.regs.seq =
      if (s.regs.phase = .off ∨ s.regs.phase = .reserved) ∧ 5 ≤ s.regs.pos.toNat then .gate else .sweep := by
  obtain ⟨-, -, -, hdrive, hon, hoff⟩ := sweep_edge hr h hq
  by_cases hleave : s.regs.phase = .off ∨ s.regs.phase = .reserved
  · obtain ⟨hend, hnext⟩ := hoff hleave
    by_cases h5 : 5 ≤ s.regs.pos.toNat
    · rw [if_pos ⟨hleave, h5⟩]; exact (hend h5).1
    · rw [if_neg fun c => h5 c.2]; exact (hnext (by omega)).1
  · rw [if_neg fun c => hleave c.1]
    cases hphase : s.regs.phase with
    | drive => exact (hdrive hphase).1
    | on => exact (hon hphase).1
    | off => exact absurd (.inl hphase) hleave
    | reserved => exact absurd (.inr hphase) hleave

/-- Settles O32: the order is that of the edges in each state of `seq`; no other stimulus but reset writes it. -/
theorem sequencerTakesNoOtherOrder : Obligations.SequencerTakesNoOtherOrder := by
  refine ⟨⟨rfl, rfl, rfl, rfl⟩, fun v s t hr h => ?_, fun s t hEdge hReset h => ?_, fun s => ⟨_, rfl, rfl⟩⟩
  · obtain ⟨hgate, hpollH, hpollM⟩ := outsideSweep_edge hr h
    cases hq : s.regs.seq with
    | gate => exact (hgate hq).1
    | pollH => exact (hpollH hq).1
    | pollM => exact (hpollM hq).1
    | sweep => exact sweep_edge_seq hr h hq
  · exact (step_sameSweep hEdge hReset h).seq

/-- R141: no enable is asserted outside the sweep. -/
theorem State.en_of_ne_sweep {s : State} (hq : s.regs.seq ≠ .sweep) : s.en = 0 := if_neg fun h => hq h.1

/-- Settles O45: the multiplexer is at rest outside the sweep, by the invariant before the step and after it. -/
theorem outsideTheSweepNothingIsLit : Obligations.OutsideTheSweepNothingIsLit := by
  refine ⟨fun s hs hq => ⟨State.en_of_ne_sweep hq, ?_⟩, fun s t hs h hq => ?_⟩
  · obtain ⟨-, -, hsweep, -⟩ := s.inv_iff.mp hs
    obtain ⟨hpos, -, -⟩ := hsweep.rest hq
    rw [State.bcd_eq, hpos]; rfl
  · obtain ⟨-, -, hsweep, -⟩ := t.inv_iff.mp (invariantIsKeptByEveryStep s t hs h)
    exact hsweep.rest hq

/-- Settles O35: GATE and RESET are the only operations that write `last_sec`. -/
theorem lastSecIsWrittenByGateOnly : Obligations.LastSecIsWrittenByGateOnly :=
  ⟨fun _ _ _ h hg hr => exec_lastSec_of_ne h hg hr, fun _ => ⟨_, rfl, exec_gate_lastSec rfl⟩, fun _ => ⟨_, rfl, rfl⟩⟩

/-- Settles O49: neither an operation nor the sampling of a stimulus writes a parameter. -/
theorem parametersAreFixed : Obligations.ParametersAreFixed :=
  ⟨fun _ _ _ h => exec_params h, fun _ _ h => step_params h⟩

end Sys2Proof.Machine
end

section
/-! Elapsed time (R68): `sub_W` depends on how far apart two instants are and not on where they lie, so the two verdicts
taken from it, and with them every operation but reset, commute with moving the counter (`State.shiftTime`). -/

namespace Sys2Proof.Machine

/-! ### The measure and the verdicts -/

/-- R11: moving both instants by the same amount, modulo `2^w`, leaves their `sub_W`. -/
theorem subW_shift (w c a b : Nat) : subW w ((a + c) % 2 ^ w) ((b + c) % 2 ^ w) = subW w a b := by
  have h : (subW w ((a + c) % 2 ^ w) ((b + c) % 2 ^ w) : Int) = subW w a b := by
    rw [subW_eq_int, subW_eq_int, Int.natCast_emod, Int.natCast_emod, ← Int.sub_emod]
    congr 1; push_cast; ring
  exact_mod_cast h

theorem subW_elapsed_eq_iff (w t n : Nat) : subW w ((t + n) % 2 ^ w) t = n ↔ n < 2 ^ w := by
  rw [subW_elapsed]
  exact Nat.mod_eq_iff_lt (Nat.two_pow_pos w).ne'

/-- R202: the 1 Hz gate compares no absolute value. -/
theorem State.gateDue_shiftTime (c : Nat) (s : State) : (s.shiftTime c).gateDue = s.gateDue :=
  congrArg (fun n => decide (Config.secondMs ≤ n)) (subW_shift s.params.wMs c s.pins.now s.regs.lastSec)

/-- R173, R175: the verdict of a poll compares no absolute value. -/
theorem Debouncer.fires_shiftTime (w c n : Nat) (d : Debouncer) :
    (d.shiftTime w c).fires w ((n + c) % 2 ^ w) = d.fires w n :=
  congrArg (fun k => d.pressed && !d.lvl && decide (Config.debounceMs < k)) (subW_shift w c n d.tf)

theorem Debouncer.polled_shiftTime (w c n : Nat) (d : Debouncer) :
    (d.shiftTime w c).polled w ((n + c) % 2 ^ w) = (d.polled w n).shiftTime w c := by
  unfold Debouncer.polled
  rw [Debouncer.fires_shiftTime]
  cases d.fires w n <;> rfl

@[simp] theorem State.shiftTime_params (c : Nat) (s : State) : (s.shiftTime c).params = s.params := rfl
@[simp] theorem State.shiftTime_bank (c : Nat) (s : State) : (s.shiftTime c).regs.bank = s.regs.bank := rfl
@[simp] theorem State.shiftTime_now (c : Nat) (s : State) :
    (s.shiftTime c).pins.now = (s.pins.now + c) % 2 ^ s.params.wMs := rfl

theorem State.shiftTime_debouncer (c : Nat) (s : State) (b : Button) :
    (s.shiftTime c).regs.debouncer b = (s.regs.debouncer b).shiftTime s.params.wMs c := by
  cases b <;> rfl

theorem State.fires_shiftTime (c : Nat) (s : State) (b : Button) : (s.shiftTime c).fires b = s.fires b := by
  unfold State.fires
  rw [State.shiftTime_debouncer, State.shiftTime_params, State.shiftTime_now, Debouncer.fires_shiftTime]

/-! ### The command words of the sequencer -/

theorem State.gateWord_shiftTime (c : Nat) (s : State) : (s.shiftTime c).gateWord = s.gateWord := by
  unfold State.gateWord
  rw [State.gateDue_shiftTime]

theorem State.pollHWord_shiftTime (c : Nat) (s : State) : (s.shiftTime c).pollHWord = s.pollHWord := by
  unfold State.pollHWord
  rw [State.fires_shiftTime, State.shiftTime_bank]

theorem State.pollMWord_shiftTime (c : Nat) (s : State) : (s.shiftTime c).pollMWord = s.pollMWord := by
  unfold State.pollMWord
  rw [State.fires_shiftTime, State.shiftTime_bank]

/-! ### The operations -/

theorem State.pollOf_shiftTime (c : Nat) (s : State) (b : Button) :
    (s.shiftTime c).pollOf b = (s.pollOf b).shiftTime c := by
  unfold State.pollOf
  rw [State.fires_shiftTime, State.shiftTime_debouncer, State.shiftTime_params, State.shiftTime_now,
    Debouncer.polled_shiftTime]
  cases b <;> rfl

/-- R68: on a moved counter every operation but reset, which loads zeros, does the same. -/
theorem exec_shiftTime {i : Instr} {s t : State} (c : Nat) (hi : i ≠ .reset) (h : exec i s = .next t) :
    exec i (s.shiftTime c) = .next (t.shiftTime c) := by
  cases i with
  | reset => exact absurd rfl hi
  | gate =>
    injection h with h; subst h
    simp only [exec, execGate, State.gateDue_shiftTime, State.gateWord_shiftTime]
    cases s.gateDue <;> rfl
  | pollH =>
    injection h with h; subst h
    simp only [exec, execPollH, State.pollOf_shiftTime, State.pollHWord_shiftTime]
    rfl
  | pollM =>
    injection h with h; subst h
    simp only [exec, execPollM, State.pollOf_shiftTime, State.pollMWord_shiftTime]
    rfl
  | poll b =>
    injection h with h; subst h
    exact congrArg _ (s.pollOf_shiftTime c b)
  | muxOn =>
    rw [exec_muxOn] at h
    injection h with h; subst h
    exact exec_muxOn (s.shiftTime c)
  | muxOff | muxReserved =>
    replace h := (exec_muxOff s).symm.trans h
    injection h with h; subst h
    exact exec_muxOff (s.shiftTime c)
  | _ => injection h with h; subst h; rfl

/-- Settles O20: `sub_W` measures modulo `2^w`, and a moved counter moves no verdict. -/
theorem elapsedTimeIsModularAndRelative : Obligations.ElapsedTimeIsModularAndRelative :=
  ⟨fun w t n _ => ⟨subW_elapsed w t n, subW_elapsed_eq_iff w t n⟩, fun c _ _ _ hi h => exec_shiftTime c hi h⟩

end Sys2Proof.Machine
end

section
/-! The codes as numbers: at each port of the bank the decoder's cases are ranges of the word (R85, R87), so the encoder
and the decoder are inverse to each other by arithmetic on the word; and the row the opcode table gives a code (R93). -/

namespace Sys2Proof.Machine

/-- The bits of `hi ++ lo` as a number. -/
theorem toNat_append_add {m k : Nat} (hi : BitVec m) (lo : BitVec k) :
    (hi ++ lo).toNat = hi.toNat * 2 ^ k + lo.toNat := by
  rw [BitVec.toNat_append, ← Nat.shiftLeft_add_eq_or_of_lt lo.isLt, Nat.shiftLeft_eq]

/-! ### The decoder -/

/-- The range of command words of each row (R81 to R85). -/
theorem decodeCommand_eq (w : CommandWord) : decodeCommand w =
    if w.toNat ≤ 0x3F then .nop (w.extractLsb' 0 6)
    else if w.toNat ≤ 0x7F then .adv (w.extractLsb' 0 6)
    else if w.toNat ≤ 0x97 then .seth (w.extractLsb' 0 5)
    else if w.toNat ≤ 0x9F then .rsvSethH (w.extractLsb' 0 3)
    else if w.toNat ≤ 0xBF then .rsvSethA5 (w.extractLsb' 0 5)
    else if w.toNat ≤ 0xFB then .setm (w.extractLsb' 0 6)
    else .rsvSetm (w.extractLsb' 0 2) := by
  have hw := w.isLt
  simp only [decodeCommand, ← BitVec.toNat_inj, BitVec.extractLsb'_toNat, Nat.shiftRight_eq_div_pow,
    BitVec.toNat_ofNat]
  -- branches of different rows have contradictory conditions
  split_ifs <;> try omega
  all_goals rfl

/-- The range of read selects of each row (R86, R87). -/
theorem decodeRead_eq (w : ReadSelect) : decodeRead w =
    if w.toNat ≤ 5 then .getd (w.extractLsb' 0 3)
    else if w.toNat ≤ 7 then .rsvGetd (w.extractLsb' 0 1)
    else if w.toNat = 8 then .geth
    else if w.toNat = 9 then .getm
    else if w.toNat ≤ 11 then .rsvRsel101 (w.extractLsb' 0 1)
    else .rsvRsel11 (w.extractLsb' 0 2) := by
  have hw := w.isLt
  simp only [decodeRead, ← BitVec.toNat_inj, BitVec.extractLsb'_toNat, Nat.shiftRight_eq_div_pow, BitVec.toNat_ofNat]
  -- branches of different rows have contradictory conditions
  split_ifs <;> try omega
  all_goals rfl

/-- An operand of SETH, SETM or GETD is decoded only inside its range (R82, R83, R86). -/
theorem decodeCommand_wellFormed (w : CommandWord) : (decodeCommand w).wellFormed = true := by
  rw [decodeCommand_eq]
  split_ifs <;> simp only [Instr.wellFormed, decide_eq_true_eq, BitVec.extractLsb'_toNat, Nat.shiftRight_zero]
  all_goals omega

theorem decodeRead_wellFormed (w : ReadSelect) : (decodeRead w).wellFormed = true := by
  rw [decodeRead_eq]
  split_ifs <;> simp only [Instr.wellFormed, decide_eq_true_eq, BitVec.extractLsb'_toNat, Nat.shiftRight_zero]
  all_goals omega

theorem decodeInternal_wellFormed (w : BitVec 4) : (decodeInternal w).wellFormed = true := by
  unfold decodeInternal
  split_ifs <;> rfl

/-! ### The encoder after the decoder -/

theorem encode_decodeCommand (w : CommandWord) : encode (decodeCommand w) = .cmd w := by
  have hw := w.isLt
  rw [decodeCommand_eq]
  split_ifs
  all_goals
    refine congrArg Code.cmd (BitVec.eq_of_toNat_eq ?_)
    simp only [toNat_append_add, BitVec.extractLsb'_toNat, BitVec.toNat_ofNat]
    omega

theorem encode_decodeRead (w : ReadSelect) : encode (decodeRead w) = .rsel w := by
  have hw := w.isLt
  rw [decodeRead_eq]
  split_ifs
  all_goals
    refine congrArg Code.rsel (BitVec.eq_of_toNat_eq ?_)
    simp only [toNat_append_add, BitVec.extractLsb'_toNat, BitVec.toNat_ofNat]
    omega

/-- A code of `seq` and `phase` that has a row is the code of what it decodes to (R88, R89). -/
theorem encode_decodeInternal {w : BitVec 4} (h : tableRow (.seqph w) ≠ none) :
    encode (decodeInternal w) = .seqph w := by
  revert w; decide

/-! ### The decoder after the encoder -/

theorem decodeCommand_of_encode {i : Instr} {w : CommandWord} (hi : i.wellFormed = true) (h : encode i = .cmd w) :
    decodeCommand w = i := by
  cases i with
  | nop x | adv x | rsvSethH x | rsvSethA5 x | seth x | rsvSetm x | setm x =>
    cases h
    have hx := x.isLt
    simp only [Instr.wellFormed, decide_eq_true_eq] at hi
    simp only [decodeCommand_eq, toNat_append_add, BitVec.toNat_ofNat]
    split_ifs <;> try omega
    all_goals exact congrArg _ BitVec.extractLsb'_append_eq_right
  | _ => exact nomatch h

theorem decodeRead_of_encode {i : Instr} {w : ReadSelect} (hi : i.wellFormed = true) (h : encode i = .rsel w) :
    decodeRead w = i := by
  cases i with
  | geth | getm => cases h; rfl
  | rsvGetd x | getd x | rsvRsel101 x | rsvRsel11 x =>
    cases h
    have hx := x.isLt
    simp only [Instr.wellFormed, decide_eq_true_eq] at hi
    simp only [decodeRead_eq, toNat_append_add, BitVec.toNat_ofNat]
    split_ifs <;> try omega
    all_goals exact congrArg _ BitVec.extractLsb'_append_eq_right
  | _ => exact nomatch h

theorem decodeInternal_of_encode {i : Instr} {w : BitVec 4} (h : encode i = .seqph w) : decodeInternal w = i := by
  cases i with
  | gate | pollH | pollM | muxDrive | muxOn | muxOff | muxReserved => cases h; rfl
  | _ => exact nomatch h

theorem decodePoll_of_encode {i : Instr} {w : BitVec 4} (h : encode i = .poll w) : decodePoll w = .ok i := by
  cases i with
  | poll b => cases h; cases b <;> rfl
  | _ => exact nomatch h

theorem decodeReset_of_encode {i : Instr} {w : BitVec 1} (h : encode i = .rst w) : decodeReset w = .ok i := by
  cases i with
  | reset => cases h; rfl
  | _ => exact nomatch h

/-- Settles O1: whatever the form of the instruction's code, the decoder of that form gives the instruction back. -/
theorem decodeOfEncodeIsTheInstruction : Obligations.DecodeOfEncodeIsTheInstruction := by
  intro i hi
  cases h : encode i with
  | cmd w => exact congrArg Except.ok (decodeCommand_of_encode hi h)
  | rsel w => exact congrArg Except.ok (decodeRead_of_encode hi h)
  | seqph w => exact congrArg Except.ok (decodeInternal_of_encode h)
  | poll w => exact decodePoll_of_encode h
  | rst w => exact decodeReset_of_encode h

/-- Settles O3: the decoder evaluated on each word. -/
theorem wordsOfTheTablesDecode : Obligations.WordsOfTheTablesDecode := by
  unfold Obligations.WordsOfTheTablesDecode
  decide

/-! ### The opcode table -/

/-- R93: the first row that matches an instruction's code is the instruction's own. The code of a poll of one debouncer
alone is left out: the model's choice, it shares its bits with a row of the sequencer (log entry 9). -/
theorem tableRow_of_encode {i : Instr} {c : Code} (hi : i.wellFormed = true) (h : encode i = c)
    (hc : ∀ w, c ≠ .poll w) : tableRow c = some i.row := by
  subst h
  cases i with
  | poll b => exact absurd rfl (hc b.code)
  | nop x | adv x | rsvSethH x | rsvSethA5 x | seth x | rsvSetm x | setm x | rsvGetd x | getd x | rsvRsel101 x
  | rsvRsel11 x => clear hc; revert x; decide
  | geth | getm | gate | pollH | pollM | muxDrive | muxOn | muxOff | muxReserved | reset => decide

/-- Settles O2: a word is the code of what it decodes to, and the table's row of that code is the instruction's. -/
theorem everyWordDecodesToItsTableRow : Obligations.EveryWordDecodesToItsTableRow := by
  refine ⟨fun w => ?_, fun w => ?_, fun w r hrow => ?_⟩
  · have hwf := decodeCommand_wellFormed w
    have henc := encode_decodeCommand w
    exact ⟨rfl, hwf, henc, tableRow_of_encode hwf henc nofun⟩
  · have hwf := decodeRead_wellFormed w
    have henc := encode_decodeRead w
    exact ⟨rfl, hwf, henc, tableRow_of_encode hwf henc nofun⟩
  · have henc := encode_decodeInternal (w := w) (by simp [hrow])
    have hfirst := tableRow_of_encode (decodeInternal_wellFormed w) henc nofun
    exact ⟨rfl, Option.some.inj (hfirst.symm.trans hrow)⟩

end Sys2Proof.Machine
end

section
/-! Which command words change the bank, and which of them the sequencer drives (R84, R85). -/

namespace Sys2Proof.Machine

/-- R107, R109: a reserved operand of SETH or SETM changes nothing. -/
theorem exec_decodeCommand_reserved {w : CommandWord} (h : 0x98 ≤ w.toNat ∧ w.toNat ≤ 0xBF ∨ 0xFC ≤ w.toNat)
    (s : State) : exec (decodeCommand w) s = .next s := by
  rw [decodeCommand_eq]
  split_ifs <;> try omega
  all_goals rfl

/-- R101: `arg` of NOP is ignored. -/
theorem exec_decodeCommand_nop {w : CommandWord} (h : w.toNat ≤ 0x3F) (s : State) :
    exec (decodeCommand w) s = exec (.nop 0) s := by
  rw [decodeCommand_eq, if_pos h]; rfl

/-- R102: `arg` of ADV is ignored. -/
theorem exec_decodeCommand_adv {w : CommandWord} (h : 0x40 ≤ w.toNat ∧ w.toNat ≤ 0x7F) (s : State) :
    exec (decodeCommand w) s = exec (.adv 0) s := by
  rw [decodeCommand_eq, if_neg (by omega), if_pos h.2]; rfl

theorem Bank.nextHourWord_toNat (b : Bank) : b.nextHourWord.toNat = 0x80 + (b.readHours.toNat + 1) % 24 := by
  rw [Bank.nextHourWord, Bank.readPort_geth, BitVec.toNat_ofNat]; omega

theorem Bank.nextMinuteWord_toNat (b : Bank) : b.nextMinuteWord.toNat = 0xC0 + (b.readMinutes.toNat + 1) % 60 := by
  rw [Bank.nextMinuteWord, Bank.readPort_getm, BitVec.toNat_ofNat]; omega

/-- R201 to R205: the four words the sequencer chooses from. -/
theorem State.sequencerWord_cases (s : State) :
    s.sequencerWord = nopWord ∨ s.sequencerWord = advWord ∨ s.sequencerWord = s.regs.bank.nextHourWord ∨
      s.sequencerWord = s.regs.bank.nextMinuteWord := by
  unfold State.sequencerWord
  cases s.regs.seq with
  | gate => simp only [State.gateWord]; split <;> simp
  | pollH => simp only [State.pollHWord]; split <;> simp
  | pollM => simp only [State.pollMWord]; split <;> simp
  | sweep => simp

/-- R85: the sequencer issues no reserved operand. -/
theorem State.sequencerWord_not_reserved (s : State) :
    s.sequencerWord.toNat = 0x00 ∨ s.sequencerWord.toNat = 0x40 ∨
      0x80 ≤ s.sequencerWord.toNat ∧ s.sequencerWord.toNat ≤ 0x97 ∨
      0xC0 ≤ s.sequencerWord.toNat ∧ s.sequencerWord.toNat ≤ 0xFB := by
  rcases s.sequencerWord_cases with h | h | h | h <;> rw [h]
  · exact .inl rfl
  · exact .inr (.inl rfl)
  · rw [Bank.nextHourWord_toNat]; omega
  · rw [Bank.nextMinuteWord_toNat]; omega

/-- Settles O4: the words by their ranges, and the sequencer's by the four it chooses from. -/
theorem reservedCommandWordsAreIgnored : Obligations.ReservedCommandWordsAreIgnored :=
  fun w s => ⟨exec_next (decodeCommand w) s, fun h => exec_decodeCommand_reserved h s,
    fun h => exec_decodeCommand_nop h s, fun h => exec_decodeCommand_adv h s, s.sequencerWord_not_reserved⟩

end Sys2Proof.Machine
end

section
/-! The assembler of bank programs (R91, R92). -/

namespace Sys2Proof.Machine

theorem assemble_singleton (st : Statement) : assemble [st] = assembleStatement st := by
  unfold assemble
  cases assembleStatement st <;> simp [assemble]

/-- Copies of a statement that presents one stimulus present copies of that stimulus. -/
theorem assemble_replicate {st : Statement} {x : Stimulus} (h : assembleStatement st = some [x]) (n : Nat) :
    assemble (List.replicate n st) = some (List.replicate n x) := by
  induction n with
  | zero => rfl
  | succ n ih => simp [List.replicate_succ, assemble, h, ih]

/-- Settles O5: `ADVN` and `WAIT` by induction on the count, `SETT` by the two statements it stands for. -/
theorem pseudoInstructionsExpand : Obligations.PseudoInstructionsExpand := by
  refine ⟨fun n => ?_, fun n => ?_, fun hh mm => ?_⟩
  · rw [assemble_singleton, assemble_replicate rfl]; rfl
  · rw [assemble_singleton, assemble_replicate rfl]; rfl
  · rw [assemble_singleton, assemble, assemble_singleton]; rfl

/-- Settles O6: the table of R91 is the equations of `assembleStatement`, row by row. -/
theorem statementsAssembleToTheirWords : Obligations.StatementsAssembleToTheirWords :=
  ⟨rfl, rfl, fun _ => rfl, fun _ => rfl, fun _ => rfl, rfl, rfl, fun _ => rfl⟩

end Sys2Proof.Machine
end

section
/-! ADV on the six digits: stage by stage on every value (R102, R104), on an invariant state as arithmetic on the time of
day (R105), and over a run of ADV words as the cycle of the 86400 invariant states (R115). -/

namespace Sys2Proof.Machine

/-! ### The stages on every value -/

/-- R102, R104: what a ripple stage leaves in its digit. -/
theorem carryStage_digit (terminal x : Digit) (carry : Bool) :
    (carryStage terminal carry x).1.toNat =
      if carry then (if x.toNat = terminal.toNat then 0 else (x.toNat + 1) % 16) else x.toNat := by
  cases carry
  · rfl
  · rw [carryStage_true, if_pos rfl]
    by_cases h : x = terminal
    · simp [h]
    · simp [h, BitVec.toNat_inj]

/-- R103: a stage carries on exactly when it receives a carry at its terminal value. -/
theorem carryStage_carry (terminal x : Digit) (carry : Bool) :
    (carryStage terminal carry x).2 = true ↔ carry = true ∧ x.toNat = terminal.toNat := by
  cases carry
  · simp
  · rw [carryStage_true, BitVec.toNat_inj]
    by_cases h : x = terminal <;> simp [h]

/-- R102: the hours units after stage 5. -/
theorem hourStage_units (a b : Digit) (carry : Bool) :
    (hourStage carry a b).2.toNat =
      if carry then
        (if a.toNat = 2 ∧ b.toNat = 3 then 0 else if b.toNat = 9 then 0 else (b.toNat + 1) % 16)
      else b.toNat := by
  revert a b carry; decide

/-- R102: the hours tens after stage 5. -/
theorem hourStage_tens (a b : Digit) (carry : Bool) :
    (hourStage carry a b).1.toNat =
      if carry then
        (if a.toNat = 2 ∧ b.toNat = 3 then 0 else if b.toNat = 9 then (a.toNat + 1) % 16 else a.toNat)
      else a.toNat := by
  revert a b carry; decide

/-- Settles O10: each digit is that of its own stage, and the carry into it is that of the stages before. -/
theorem advRipplesThroughTheDigits : Obligations.AdvRipplesThroughTheDigits := by
  intro arg s
  have n9 : (9 : Digit).toNat = 9 := rfl
  have n5 : (5 : Digit).toNat = 5 := rfl
  refine ⟨decodeOfEncodeIsTheInstruction (.adv arg) rfl, _, _, _, _, _, _, rfl, ?_⟩
  simp only [carryStage_digit, carryStage_carry, hourStage_units, hourStage_tens, n9, n5, if_true, true_and, and_self]

/-! ### The time of day -/

/-- R13, R22: the digits of an invariant state are the base-10 digits of its hours, minutes and seconds. -/
theorem Bank.Inv.digits {b : Bank} (hb : b.Inv) :
    b.A.toNat = b.hh / 10 ∧ b.B.toNat = b.hh % 10 ∧ b.C.toNat = b.mm / 10 ∧ b.D.toNat = b.mm % 10 ∧
    b.E.toNat = b.ss / 10 ∧ b.F.toNat = b.ss % 10 := by
  obtain ⟨-, hB, -, hD, -, hF, -⟩ := hb
  simp only [Bank.hh, Bank.mm, Bank.ss]
  omega

theorem Bank.Inv.hh_le {b : Bank} (hb : b.Inv) : b.hh ≤ 23 := by
  obtain ⟨-, -, -, -, -, -, hAB⟩ := hb
  exact hAB

theorem Bank.Inv.mm_le {b : Bank} (hb : b.Inv) : b.mm ≤ 59 := by
  obtain ⟨-, -, hC, hD, -, -, -⟩ := hb
  simp only [Bank.mm]; omega

theorem Bank.Inv.ss_le {b : Bank} (hb : b.Inv) : b.ss ≤ 59 := by
  obtain ⟨-, -, -, -, hE, hF, -⟩ := hb
  simp only [Bank.ss]; omega

/-- R105: ADV is the operation on whole numbers, each number in terms of those of the smaller units after it. -/
theorem Bank.adv_time {b : Bank} (hb : b.Inv) :
    b.adv.ss = (b.ss + 1) % 60 ∧
    b.adv.mm = (if b.adv.ss = 0 then (b.mm + 1) % 60 else b.mm) ∧
    b.adv.hh = (if b.adv.ss = 0 ∧ b.adv.mm = 0 then (b.hh + 1) % 24 else b.hh) := by
  obtain ⟨-, hss, hmm, hhh⟩ := Bank.adv_toNat hb
  have hs := hb.ss_le
  have hm := hb.mm_le
  have hsec : b.adv.ss = 0 ↔ b.ss = 59 := by omega
  have hmin : b.adv.ss = 0 ∧ b.adv.mm = 0 ↔ b.ss = 59 ∧ b.mm = 59 := by
    rw [hsec, hmm]
    split_ifs <;> omega
  exact ⟨hss, hmm.trans (if_congr hsec.symm rfl rfl), hhh.trans (if_congr hmin.symm rfl rfl)⟩

/-- Settles O11: the digits after ADV are those of the numbers after it, since the state after it is invariant. -/
theorem advIsTheHoursModulo24Operation : Obligations.AdvIsTheHoursModulo24Operation := by
  intro arg s hb
  refine ⟨_, _, _, _, _, _, rfl, ?_⟩
  obtain ⟨hss, hmm, hhh⟩ := Bank.adv_time hb
  have hdigits := (Bank.adv_inv hb).digits
  rw [hhh, hmm, hss] at hdigits
  exact hdigits

/-! ### The cycle of a day -/

theorem Bank.adv_iterate {b : Bank} (hb : b.Inv) (n : Nat) :
    (Bank.adv^[n] b).Inv ∧ (Bank.adv^[n] b).secondOfDay = (b.secondOfDay + n) % 86400 := by
  induction n with
  | zero => exact ⟨hb, (Nat.mod_eq_of_lt (Bank.secondOfDay_lt hb)).symm⟩
  | succ n ih =>
    obtain ⟨hinv, hsec⟩ := ih
    rw [Function.iterate_succ_apply']
    refine ⟨Bank.adv_inv hinv, ?_⟩
    rw [Bank.adv_secondOfDay hinv, hsec, Nat.mod_add_mod, Nat.add_assoc]

/-- R115: `n` ADVs give an invariant state back exactly when whole days have passed. -/
theorem Bank.adv_iterate_eq_self_iff {b : Bank} (hb : b.Inv) (n : Nat) : Bank.adv^[n] b = b ↔ n % 86400 = 0 := by
  obtain ⟨hinv, hsec⟩ := Bank.adv_iterate hb n
  have hlt := Bank.secondOfDay_lt hb
  constructor
  · intro h
    rw [h] at hsec
    omega
  · intro h
    exact Bank.eq_of_secondOfDay hinv hb (by omega)

/-- R115: any invariant state is reached from any other in fewer than 86400 ADVs. -/
theorem Bank.exists_adv_iterate_eq {b c : Bank} (hb : b.Inv) (hc : c.Inv) : ∃ n < 86400, Bank.adv^[n] b = c := by
  have hlt := Bank.secondOfDay_lt hb
  have hlt' := Bank.secondOfDay_lt hc
  refine ⟨(c.secondOfDay + (86400 - b.secondOfDay)) % 86400, Nat.mod_lt _ (by norm_num), ?_⟩
  obtain ⟨hinv, hsec⟩ := Bank.adv_iterate hb ((c.secondOfDay + (86400 - b.secondOfDay)) % 86400)
  exact Bank.eq_of_secondOfDay hinv hc (by omega)

/-- R100: the ADV word presented to the bank alone is ADV. -/
theorem step_adv {s : State} {rest : List Stimulus} (h : s.pending = .command false 0x40 :: rest) :
    ∃ t, step s = .next t ∧ t.pending = rest ∧ t.regs.bank = s.regs.bank.adv := by
  have hstep := step_of_decode (i := .adv 0) (congrArg decode (State.nextCode_of_cons h))
  rw [State.fetched_of_cons h] at hstep
  exact ⟨_, hstep, rfl, rfl⟩

theorem run_succ_of_step {n : Nat} {s u : State} (h : step s = .next u) :
    Host.Core.run Sys2Proof.core (n + 1) s = Host.Core.run Sys2Proof.core n u := by
  have hcore : Host.Core.step Sys2Proof.core s = .next u := h
  simp only [Host.Core.run, hcore]

/-- Presenting the ADV word `n` times applies ADV `n` times to the digits. -/
theorem run_adv (n : Nat) {s : State} {rest : List Stimulus}
    (h : s.pending = List.replicate n (.command false 0x40) ++ rest) :
    ∃ t : State, Host.Core.run Sys2Proof.core n s = .next t ∧ t.regs.bank = Bank.adv^[n] s.regs.bank := by
  induction n generalizing s with
  | zero => exact ⟨s, rfl, rfl⟩
  | succ n ih =>
    obtain ⟨u, hstep, hpending, hbank⟩ := step_adv h
    obtain ⟨t, hrun, ht⟩ := ih hpending
    refine ⟨t, ?_, ?_⟩
    · rw [run_succ_of_step hstep]
      exact hrun
    · rw [ht, hbank, Function.iterate_succ_apply]

/-- Settles O12: a run of ADV words iterates ADV, which is the successor of the second of the day modulo 86400. -/
theorem advHasPeriodOneDay : Obligations.AdvHasPeriodOneDay := by
  refine ⟨fun n s hb => ?_, fun b s hb hs => ?_⟩
  · obtain ⟨t, hrun, ht⟩ := run_adv n (s := s.withProgram _) rfl
    obtain ⟨hinv, hsec⟩ := Bank.adv_iterate hb n
    refine ⟨t, hrun, ?_⟩
    rw [ht]
    exact ⟨hinv, hsec, Bank.adv_iterate_eq_self_iff hb n⟩
  · obtain ⟨n, hn, hreach⟩ := Bank.exists_adv_iterate_eq hs hb
    obtain ⟨t, hrun, ht⟩ := run_adv n (s := s.withProgram _) rfl
    exact ⟨n, t, hn, hrun, ht.trans hreach⟩

end Sys2Proof.Machine
end

section
/-! The commands SETH and SETM and the reads of the bank, one rule per operation (R106 to R113, R116), and the invariant
of the digits (R114). -/

namespace Sys2Proof.Machine

/-! ### The sets -/

/-- R106: the quotient and the remainder by 10 go to A and B. -/
theorem exec_seth_of_le {h : BitVec 5} (hh : h.toNat ≤ 23) (s : State) :
    exec (.seth h) s = .next (s.withBank
      { s.regs.bank with A := BitVec.ofNat 4 (h.toNat / 10), B := BitVec.ofNat 4 (h.toNat % 10) }) :=
  congrArg (fun b => Host.Outcome.next (s.withBank b)) (Bank.setHours_of_le s.regs.bank hh)

/-- R107: above 23 the operand is ignored. -/
theorem exec_seth_of_gt {h : BitVec 5} (hh : 23 < h.toNat) (s : State) : exec (.seth h) s = .next s :=
  congrArg (fun b => Host.Outcome.next (s.withBank b)) (Bank.setHours_of_gt s.regs.bank hh)

/-- R108: the quotient and the remainder by 10 go to C and D. -/
theorem exec_setm_of_le {m : BitVec 6} (hm : m.toNat ≤ 59) (s : State) :
    exec (.setm m) s = .next (s.withBank
      { s.regs.bank with C := BitVec.ofNat 4 (m.toNat / 10), D := BitVec.ofNat 4 (m.toNat % 10) }) :=
  congrArg (fun b => Host.Outcome.next (s.withBank b)) (Bank.setMinutes_of_le s.regs.bank hm)

/-- R109: above 59 the operand is ignored. -/
theorem exec_setm_of_gt {m : BitVec 6} (hm : 59 < m.toNat) (s : State) : exec (.setm m) s = .next s :=
  congrArg (fun b => Host.Outcome.next (s.withBank b)) (Bank.setMinutes_of_gt s.regs.bank hm)

/-- A decimal digit fits its register (R21). -/
theorem digit_ofNat_toNat {n : Nat} (hn : n ≤ 9) : (BitVec.ofNat 4 n).toNat = n :=
  (BitVec.toNat_ofNat n 4).trans (Nat.mod_eq_of_lt (by omega))

/-- Settles O9: the words decode to the operations that ignore, and an operand out of range is ignored too. -/
theorem nopAndReservedSetsChangeNothing : Obligations.NopAndReservedSetsChangeNothing :=
  fun s => ⟨fun arg => ⟨decodeOfEncodeIsTheInstruction (.nop arg) rfl, rfl⟩,
    fun low => ⟨decodeOfEncodeIsTheInstruction (.rsvSethH low) rfl, rfl⟩,
    fun low => ⟨decodeOfEncodeIsTheInstruction (.rsvSethA5 low) rfl, rfl⟩,
    fun low => ⟨decodeOfEncodeIsTheInstruction (.rsvSetm low) rfl, rfl⟩,
    fun _ hh => exec_seth_of_gt hh s, fun _ hm => exec_setm_of_gt hm s⟩

/-- Settles O13: SETH on an operand in range and out of range, and the words with `cmd[5] = 1`. -/
theorem sethSetsTheHoursDigits : Obligations.SethSetsTheHoursDigits := by
  refine fun h s => ⟨fun hh => ⟨congrArg _ (decodeCommand_seth h hh), _, _, ?_, ?_, exec_seth_of_le hh s⟩,
    fun hh => exec_seth_of_gt hh s, fun low => ?_⟩
  · exact digit_ofNat_toNat (by omega)
  · exact digit_ofNat_toNat (by omega)
  · rw [decodeCommand_of_encode (i := .rsvSethA5 low) rfl rfl]; rfl

/-- Settles O14: SETM on an operand in range and out of range. -/
theorem setmSetsTheMinutesDigits : Obligations.SetmSetsTheMinutesDigits := by
  refine fun m s => ⟨fun hm => ⟨congrArg _ (decodeCommand_setm m hm), _, _, ?_, ?_, exec_setm_of_le hm s⟩,
    fun hm => exec_setm_of_gt hm s⟩
  · exact digit_ofNat_toNat (by omega)
  · exact digit_ofNat_toNat (by omega)

/-! ### The reads -/

/-- R113: the positions 6 and 7 read 0. -/
theorem Bank.readDigit_of_reserved (b : Bank) {p : Position} (hp : 6 ≤ p.toNat) : b.readDigit p = 0 := by
  have h67 : ∀ p : Position, 6 ≤ p.toNat → p = 6 ∨ p = 7 := by decide
  rcases h67 p hp with rfl | rfl <;> rfl

/-- Settles O15: the equations of the read port at each position, and the reserved selects by their decoding. -/
theorem digitReadsReturnTheDigit : Obligations.DigitReadsReturnTheDigit :=
  fun s => ⟨⟨rfl, rfl, rfl, rfl, rfl, rfl⟩,
    fun p hp => decodeOfEncodeIsTheInstruction (.getd p) (decide_eq_true hp),
    fun _ hp => congrArg (fun v => Host.Outcome.next (s.observe v)) (s.regs.bank.readDigit_of_reserved hp),
    fun x => ⟨decodeOfEncodeIsTheInstruction (.rsvGetd x) rfl, rfl⟩,
    fun x => ⟨decodeOfEncodeIsTheInstruction (.rsvRsel101 x) rfl, rfl⟩,
    fun x => ⟨decodeOfEncodeIsTheInstruction (.rsvRsel11 x) rfl, rfl⟩⟩

/-- R110: on an invariant state the truncation to 5 bits has no effect. -/
theorem Bank.readHours_eq_hh {b : Bank} (hb : b.Inv) : b.readHours.toNat = b.hh :=
  b.readHours_toNat.trans (Nat.mod_eq_of_lt (hb.hh_le.trans_lt (by norm_num)))

/-- R111: on an invariant state the truncation to 6 bits has no effect. -/
theorem Bank.readMinutes_eq_mm {b : Bank} (hb : b.Inv) : b.readMinutes.toNat = b.mm :=
  b.readMinutes_toNat.trans (Nat.mod_eq_of_lt (hb.mm_le.trans_lt (by norm_num)))

/-- Settles O16: the read port's values, exact on an invariant state. -/
theorem pairReadsReturnTheNumber : Obligations.PairReadsReturnTheNumber := by
  refine fun s => ⟨rfl, rfl, ⟨_, s.regs.bank.readHours_toNat, rfl, fun hb => ?_⟩,
    ⟨_, s.regs.bank.readMinutes_toNat, rfl, fun hb => ?_⟩⟩
  · have heq := Bank.readHours_eq_hh hb
    exact ⟨heq, heq.trans_le hb.hh_le⟩
  · have heq := Bank.readMinutes_eq_mm hb
    exact ⟨heq, heq.trans_le hb.mm_le⟩

/-! ### A set and the get after it, and the invariant -/

theorem Bank.readHours_setHours (b : Bank) {h : BitVec 5} (hh : h.toNat ≤ 23) :
    (b.setHours h).readHours.toNat = h.toNat := by
  rw [Bank.readHours_toNat, Bank.setHours_of_le b hh, digit_ofNat_toNat (by omega), digit_ofNat_toNat (by omega)]
  omega

theorem Bank.readMinutes_setMinutes (b : Bank) {m : BitVec 6} (hm : m.toNat ≤ 59) :
    (b.setMinutes m).readMinutes.toNat = m.toNat := by
  rw [Bank.readMinutes_toNat, Bank.setMinutes_of_le b hm, digit_ofNat_toNat (by omega), digit_ofNat_toNat (by omega)]
  omega

/-- Settles O18: the pair a set writes spells the operand, and a get reads it back from the pair. -/
theorem setThenGetReturnsTheOperand : Obligations.SetThenGetReturnsTheOperand :=
  fun s => ⟨fun h hh => ⟨_, _, rfl, rfl, s.regs.bank.readHours_setHours hh, s.regs.bank.setHours_frame h⟩,
    fun m hm => ⟨_, _, rfl, rfl, s.regs.bank.readMinutes_setMinutes hm, s.regs.bank.setMinutes_frame m⟩⟩

/-- Settles O17: the digits after an operation are those of `State.bankAfter`, and a step runs one operation. -/
theorem bankInvariantIsPreserved : Obligations.BankInvariantIsPreserved := by
  refine ⟨fun i s t hb h => ?_, fun s t hb h => step_bank_inv hb h, fun s => ⟨_, rfl, rfl⟩, fun b hb hA => ?_⟩
  · rw [exec_bank h]
    exact State.bankAfter_inv hb i
  · obtain ⟨-, -, -, -, -, -, hAB⟩ := hb
    omega

end Sys2Proof.Machine
end

section
/-! The outputs of the Display Multiplexer as functions of the registers (R141, R142, R147), what DRIVE and OFF make of
the state (R143, R145, R146), and that an edge beside an asserted enable moves neither `bcd` nor `pos` (R148). -/

namespace Sys2Proof.Machine

/-! ### The enables -/

/-- R141: in an ON cycle of the sweep the enable of the position is asserted. -/
theorem State.en_of_on {s : State} (hq : s.regs.seq = .sweep) (hphase : s.regs.phase = .on)
    (hpos : s.regs.pos.toNat ≤ 5) : s.en = 1#6 <<< s.regs.pos.toNat := if_pos ⟨hq, hphase, hpos⟩

/-- R141: outside the ON phase no enable is asserted. -/
theorem State.en_of_ne_on {s : State} (hphase : s.regs.phase ≠ .on) : s.en = 0 := if_neg fun h => hphase h.2.1

/-- R141: an enable is asserted only in an ON cycle of the sweep. -/
theorem State.on_of_en_ne_zero {s : State} (h : s.en ≠ 0) : s.regs.seq = .sweep ∧ s.regs.phase = .on := by
  by_contra hoff
  exact h (if_neg fun hon => hoff ⟨hon.1, hon.2.1⟩)

theorem getLsbD_one_shiftLeft (n p : Nat) : (1#6 <<< n).getLsbD p = true ↔ p < 6 ∧ n = p := by
  simp only [BitVec.getLsbD_shiftLeft, BitVec.getLsbD_one, Bool.and_eq_true, Bool.not_eq_true', decide_eq_true_eq,
    decide_eq_false_iff_not]
  omega

/-- R141: the enable of position `p` is asserted exactly in an ON cycle of the sweep at `pos = p`. -/
theorem State.en_getLsbD_iff (s : State) (p : Nat) :
    s.en.getLsbD p = true ↔ p < 6 ∧ s.regs.seq = .sweep ∧ s.regs.phase = .on ∧ s.regs.pos.toNat = p := by
  unfold State.en
  split
  case isTrue hlit =>
    obtain ⟨hq, hphase, -⟩ := hlit
    simp only [getLsbD_one_shiftLeft, hq, hphase, true_and]
  case isFalse hdark =>
    exact iff_of_false (by simp) fun ⟨hp, hq, hphase, hpos⟩ => hdark ⟨hq, hphase, by omega⟩

/-- R147: the enables are one-hot at `pos` or all low. -/
theorem State.oneEnable (s : State) : OneEnable s.en := by
  unfold State.en
  split
  case isTrue hlit => exact .inr ⟨⟨s.regs.pos.toNat, Nat.lt_succ_of_le hlit.2.2⟩, rfl⟩
  case isFalse => exact .inl rfl

/-- Settles O41: two asserted enables are both that of `pos`. -/
theorem atMostOneEnableIsAsserted : Obligations.AtMostOneEnableIsAsserted := by
  refine fun s => ⟨s.oneEnable, fun p q hp hq => ?_⟩
  obtain ⟨-, -, -, hpos⟩ := (s.en_getLsbD_iff p).mp hp
  obtain ⟨-, -, -, hpos'⟩ := (s.en_getLsbD_iff q).mp hq
  exact hpos.symm.trans hpos'

/-! ### The digit -/

/-- R113: at the reserved positions `bcd` is the reserved read. -/
theorem State.bcd_of_reserved {s : State} (hp : 6 ≤ s.regs.pos.toNat) : s.bcd = 0 := by
  rw [State.bcd, Bank.readPort_getd, Bank.readDigit_of_reserved _ hp]; rfl

/-- Settles O40: the enables by `State.en_getLsbD_iff`, and `bcd` as the digit register at each position. -/
theorem outputsShowTheDigitOfThePosition : Obligations.OutputsShowTheDigitOfThePosition := by
  refine fun s => ⟨fun p => ?_, ?_, ?_, ?_, ?_, ?_, ?_, State.bcd_of_reserved⟩
  · rw [s.en_getLsbD_iff]; exact and_iff_right p.isLt
  all_goals intro hpos; rw [s.bcd_eq, hpos]; rfl

/-! ### The phases in which nothing is lit -/

/-- Settles O37: DRIVE as one update, and its outputs. -/
theorem driveGoesOn : Obligations.DriveGoesOn :=
  fun s => ⟨rfl, rfl, fun hphase => ⟨State.en_of_ne_on (by simp [hphase]), s.bcd_eq⟩⟩

/-- Settles O39: OFF as one update, the reserved phase as OFF, their outputs, and the invariant after every step. -/
theorem offMovesToTheNextPositionOrEndsTheSweep : Obligations.OffMovesToTheNextPositionOrEndsTheSweep := by
  refine ⟨fun s t hs h => ?_, fun s => ⟨rfl, rfl, exec_muxReserved s, exec_muxOff s, fun hphase => ⟨?_, s.bcd_eq⟩⟩⟩
  · obtain ⟨-, -, hsweep, -⟩ := t.inv_iff.mp (invariantIsKeptByEveryStep s t hs h)
    exact hsweep.phase_ne
  · rcases hphase with hoff | hreserved
    · exact State.en_of_ne_on (by simp [hoff])
    · exact State.en_of_ne_on (by simp [hreserved])

/-! ### An edge beside an ON cycle -/

/-- R144: ON keeps its position, also when it ends. -/
theorem edge_pos_of_on_before {v : Inputs} {s t : State} (hr : v.rst = false) (h : EdgeRun [v] s t)
    (hq : s.regs.seq = .sweep) (hphase : s.regs.phase = .on) : t.regs.pos = s.regs.pos := by
  obtain ⟨-, -, -, -, hon, -⟩ := sweep_edge hr h hq
  obtain ⟨-, hpos, -⟩ := hon hphase
  exact hpos

/-- R143, R144: an ON cycle comes after DRIVE or ON at the same position. -/
theorem edge_pos_of_on_after {v : Inputs} {s t : State} (hr : v.rst = false) (h : EdgeRun [v] s t)
    (hq : t.regs.seq = .sweep) (hphase : t.regs.phase = .on) : s.regs.seq = .sweep ∧ t.regs.pos = s.regs.pos := by
  obtain ⟨hgate, hpollH, hpollM⟩ := outsideSweep_edge hr h
  cases hs : s.regs.seq with
  | gate => simp [(hgate hs).1] at hq
  | pollH => simp [(hpollH hs).1] at hq
  | pollM => simp [(hpollM hs).2.2.1] at hphase
  | sweep =>
    refine ⟨rfl, ?_⟩
    obtain ⟨-, -, -, hdrive, hon, hleave⟩ := sweep_edge hr h hs
    have hstays : ¬ (s.regs.phase = .off ∨ s.regs.phase = .reserved) := by
      intro hoff
      obtain ⟨hend, hnext⟩ := hleave hoff
      by_cases h5 : 5 ≤ s.regs.pos.toNat
      · simp [(hend h5).1] at hq
      · simp [(hnext (by omega)).2.2.1] at hphase
    cases hp : s.regs.phase with
    | drive => exact (hdrive hp).2.1
    | on => exact (hon hp).2.1
    | off => exact absurd (.inl hp) hstays
    | reserved => exact absurd (.inr hp) hstays

/-- Settles O42: beside an ON cycle the edge is one of the sweep at one position, and the sweep writes no digit. -/
theorem bcdIsStableWhileEnabled : Obligations.BcdIsStableWhileEnabled := by
  refine ⟨fun v s t hr h hlit => ?_, fun s _ => s.bcd_eq⟩
  have hkept : s.regs.seq = .sweep ∧ t.regs.pos = s.regs.pos := by
    rcases hlit with hs | ht
    · obtain ⟨hq, hphase⟩ := State.on_of_en_ne_zero hs
      exact ⟨hq, edge_pos_of_on_before hr h hq hphase⟩
    · obtain ⟨hq, hphase⟩ := State.on_of_en_ne_zero ht
      exact edge_pos_of_on_after hr h hq hphase
  obtain ⟨hq, hpos⟩ := hkept
  obtain ⟨-, hbank, -⟩ := sweep_edge hr h hq
  exact ⟨by rw [t.bcd_eq, s.bcd_eq, hbank, hpos], hpos⟩

end Sys2Proof.Machine
end

section
/-! The sweep cycle by cycle: the state `j` cycles into position `p` (`State.SweepPoint`), the edge from each such point
to the next, and by induction the point a run has reached (R144, R149). -/

namespace Sys2Proof.Machine

/-- The state `j` cycles into position `p` of a sweep of `d` ON cycles a position, with the digits `b`: cycle 0 is DRIVE,
the cycles 1 to `d` are ON, the cycle `d + 1` is OFF (R149). -/
structure State.SweepPoint (d : Nat) (b : Bank) (p j : Nat) (s : State) : Prop where
  dwell : s.params.dwellCyc = d
  bank : s.regs.bank = b
  seq : s.regs.seq = .sweep
  pos : s.regs.pos.toNat = p
  phase : s.regs.phase = if j = 0 then .drive else if j ≤ d then .on else .off
  cnt : s.regs.cnt = if j = 0 then 0 else if j ≤ d then j - 1 else 0

/-! ### A point -/

/-- R149: a sweep starts at position 0, with the multiplexer at rest. -/
theorem State.sweepPoint_of_idle {s : State} (hq : s.regs.seq = .sweep) (h : s.regs.Idle) :
    s.SweepPoint s.params.dwellCyc s.regs.bank 0 0 := by
  obtain ⟨hpos, hphase, hcnt⟩ := h
  exact ⟨rfl, rfl, hq, by simp [hpos], hphase, hcnt⟩

/-- R144: ON with `cnt = 0` is the first cycle after a position's DRIVE. -/
theorem State.sweepPoint_of_on {s : State} (hd : 1 ≤ s.params.dwellCyc) (hq : s.regs.seq = .sweep)
    (hphase : s.regs.phase = .on) (hcnt : s.regs.cnt = 0) :
    s.SweepPoint s.params.dwellCyc s.regs.bank s.regs.pos.toNat 1 :=
  ⟨rfl, rfl, hq, rfl, by simp [hphase, hd], by simp [hcnt]⟩

section
variable {d p j : Nat} {b : Bank} {s : State}

/-- R142: at every point `bcd` is the digit of `pos`, of the digits the sweep began with. -/
theorem State.SweepPoint.bcd (h : s.SweepPoint d b p j) : s.bcd = b.digit s.regs.pos := by
  rw [s.bcd_eq, h.bank]

/-- R149: the position's enable is asserted in the cycles 1 to `d`. -/
theorem State.SweepPoint.en (h : s.SweepPoint d b p j) (hp : p ≤ 5) :
    s.en = if 1 ≤ j ∧ j ≤ d then 1#6 <<< p else 0 := by
  have hphase := h.phase
  split
  case isTrue hj =>
    rw [if_neg (by omega), if_pos hj.2] at hphase
    rw [State.en_of_on h.seq hphase (h.pos ▸ hp), h.pos]
  case isFalse hj =>
    refine State.en_of_ne_on ?_
    rw [hphase]
    split_ifs
    · simp
    · omega
    · simp

end

/-! ### One edge -/

section
variable {d p j : Nat} {b : Bank} {v : Inputs} {s t : State}

/-- R143, R144: DRIVE and every ON cycle go on to the next cycle of the position. -/
theorem sweepPoint_edge_within (hr : v.rst = false) (h : EdgeRun [v] s t) (hd : 1 ≤ d) (hs : s.SweepPoint d b p j)
    (hj : j ≤ d) : t.SweepPoint d b p (j + 1) := by
  obtain ⟨hparams, hbank, -, hdrive, hon, -⟩ := sweep_edge hr h hs.seq
  have hdwell := hs.dwell
  have hphase := hs.phase
  have hcnt := hs.cnt
  by_cases h0 : j = 0
  · subst h0
    obtain ⟨hq, hpos, hph, hc⟩ := hdrive hphase
    exact ⟨hparams ▸ hdwell, hbank.trans hs.bank, hq, hpos ▸ hs.pos, by simp [hph, hd], by simp [hc]⟩
  · rw [if_neg h0, if_pos hj] at hphase hcnt
    obtain ⟨hq, hpos, hlast, hmore⟩ := hon hphase
    have hnext : t.regs.phase = (if j + 1 ≤ d then .on else .off) ∧ t.regs.cnt = if j + 1 ≤ d then j else 0 := by
      by_cases hend : j + 1 ≤ d
      · obtain ⟨hph, hc⟩ := hmore (by omega)
        rw [if_pos hend, if_pos hend]
        exact ⟨hph, by omega⟩
      · rw [if_neg hend, if_neg hend]
        exact hlast (by omega)
    exact ⟨hparams ▸ hdwell, hbank.trans hs.bank, hq, hpos ▸ hs.pos, hnext.1, hnext.2⟩

/-- R149: the cycle `d + 1` of a position is OFF. -/
theorem State.SweepPoint.phase_last (hs : s.SweepPoint d b p (d + 1)) : s.regs.phase = .off := by
  rw [hs.phase]; simp

/-- R145: OFF goes on to the DRIVE of the next position. -/
theorem sweepPoint_edge_next (hr : v.rst = false) (h : EdgeRun [v] s t) (hs : s.SweepPoint d b p (d + 1))
    (hp : p < 5) : t.SweepPoint d b (p + 1) 0 := by
  obtain ⟨hparams, hbank, -, -, -, hoff⟩ := sweep_edge hr h hs.seq
  have hpos := hs.pos
  have hcnt : s.regs.cnt = 0 := by rw [hs.cnt]; simp
  obtain ⟨-, hnext⟩ := hoff (.inl hs.phase_last)
  obtain ⟨hq, hpos', hphase, hcnt'⟩ := hnext (by omega)
  refine ⟨hparams ▸ hs.dwell, hbank.trans hs.bank, hq, ?_, hphase, hcnt'.trans hcnt⟩
  rw [hpos', BitVec.toNat_add, hpos]
  exact Nat.mod_eq_of_lt (by simp; omega)

/-- R145: the OFF of position 5 ends the sweep. -/
theorem sweepPoint_edge_end (hr : v.rst = false) (h : EdgeRun [v] s t) (hs : s.SweepPoint d b 5 (d + 1)) :
    t.regs.seq = .gate ∧ t.regs.Idle := by
  obtain ⟨-, -, -, -, -, hoff⟩ := sweep_edge hr h hs.seq
  obtain ⟨hend, -⟩ := hoff (.inl hs.phase_last)
  exact hend hs.pos.ge

end

/-! ### A run -/

/-- A cycle of the sweep has one position and one place in it. -/
theorem sweepCoordinates_unique {d p j q i : Nat} (hj : j < d + 2) (hi : i < d + 2)
    (h : (d + 2) * p + j = (d + 2) * q + i) : p = q ∧ j = i := by
  obtain ⟨hdiv, hmod⟩ := (Nat.div_mod_unique (Nat.succ_pos (d + 1))).mpr ⟨Nat.add_comm j _, hj⟩
  obtain ⟨hdiv', hmod'⟩ := (Nat.div_mod_unique (Nat.succ_pos (d + 1))).mpr ⟨Nat.add_comm i _, hi⟩
  rw [h] at hdiv hmod
  exact ⟨hdiv.symm.trans hdiv', hmod.symm.trans hmod'⟩

/-- R149: edges without reset take the sweep from point to point, `d + 2` of them a position. -/
theorem sweepPoint_run {d p j q i : Nat} {b : Bank} {vs : List Inputs} {s t : State} (hr : NoReset vs) (hd : 1 ≤ d)
    (hs : s.SweepPoint d b p j) (hj : j < d + 2) (h : EdgeRun vs s t) (hq : q ≤ 5) (hi : i < d + 2)
    (hlen : (d + 2) * p + j + vs.length = (d + 2) * q + i) : t.SweepPoint d b q i := by
  induction vs using List.reverseRecOn generalizing t q i with
  | nil =>
    obtain ⟨rfl, rfl⟩ := sweepCoordinates_unique hj hi hlen
    have hst : s = t := h
    exact hst ▸ hs
  | append_singleton vs v ih =>
    obtain ⟨u, hu, hv⟩ := edgeRun_snoc.mp h
    have hrv : v.rst = false := hr v (by simp)
    have hrvs : NoReset vs := fun w hw => hr w (by simp [hw])
    rw [List.length_append, List.length_singleton] at hlen
    cases i with
    | succ i =>
      exact sweepPoint_edge_within hrv hv hd (ih hrvs hu hq (by omega) (by omega)) (by omega)
    | zero =>
      cases q with
      | zero => omega
      | succ q =>
        rw [Nat.mul_succ] at hlen
        exact sweepPoint_edge_next hrv hv (ih hrvs hu (by omega) (by omega) (by omega)) (by omega)

/-- R149: after `6 * (d + 2)` edges the sweep is over. -/
theorem sweepPoint_run_end {d : Nat} {b : Bank} {vs : List Inputs} {s t : State} (hr : NoReset vs) (hd : 1 ≤ d)
    (hs : s.SweepPoint d b 0 0) (h : EdgeRun vs s t) (hlen : vs.length = 6 * (d + 2)) :
    t.regs.seq = .gate ∧ t.regs.Idle := by
  rcases vs.eq_nil_or_concat' with rfl | ⟨vs, v, rfl⟩
  · simp at hlen
  · obtain ⟨u, hu, hv⟩ := edgeRun_snoc.mp h
    rw [List.length_append, List.length_singleton] at hlen
    have hlast : u.SweepPoint d b 5 (d + 1) :=
      sweepPoint_run (fun w hw => hr w (by simp [hw])) hd hs (by omega) hu le_rfl (by omega) (by omega)
    exact sweepPoint_edge_end (hr v (by simp)) hv hlast

/-- Settles O38: ON as one update, and a run of edges from the first ON cycle of a position, the cycle 1 of it. -/
theorem onHoldsForTheDwell : Obligations.OnHoldsForTheDwell := by
  refine ⟨fun s => ⟨rfl, exec_muxOn s⟩, fun vs s t hr hp hq hphase hcnt h5 hlen h => ?_⟩
  have hd : 1 ≤ s.params.dwellCyc := hp.2
  have hs := State.sweepPoint_of_on hd hq hphase hcnt
  have ht : t.SweepPoint s.params.dwellCyc s.regs.bank s.regs.pos.toNat (1 + vs.length) :=
    sweepPoint_run hr hd hs (by omega) h h5 (by omega) (by omega)
  have hpos : t.regs.pos = s.regs.pos := BitVec.eq_of_toNat_eq ht.pos
  refine ⟨hpos, fun hlt => ⟨?_, ?_, ?_⟩, fun heq => ⟨?_, ?_⟩⟩
  · rw [ht.phase, if_neg (by omega), if_pos (by omega)]
  · rw [ht.en h5, if_pos (by omega)]
  · rw [ht.bcd, hs.bcd, hpos]
  · rw [ht.phase, if_neg (by omega), if_neg (by omega)]
  · rw [ht.en h5, if_neg (by omega)]

/-- Settles O43: POLL_M starts the sweep at rest, and a run from there is at the point of its length. -/
theorem sweepHasItsShape : Obligations.SweepHasItsShape := by
  refine ⟨fun s => ⟨_, rfl, exec_pollM_idle rfl⟩, fun vs s t hr hp hq hidle _ h => ⟨fun hlen => ?_, fun hlen => ?_⟩⟩
  · obtain ⟨hgate, hrest⟩ := sweepPoint_run_end hr hp.2 (State.sweepPoint_of_idle hq hidle) h hlen
    exact ⟨hgate, hrest, State.en_of_ne_sweep (by simp [hgate])⟩
  · have hposition : vs.length / (s.params.dwellCyc + 2) ≤ 5 :=
      Nat.le_of_lt_succ (Nat.div_lt_of_lt_mul (Nat.mul_comm 6 _ ▸ hlen))
    have hplace : vs.length % (s.params.dwellCyc + 2) < s.params.dwellCyc + 2 := Nat.mod_lt _ (Nat.succ_pos _)
    have hsum := Nat.div_add_mod vs.length (s.params.dwellCyc + 2)
    have ht := sweepPoint_run hr hp.2 (State.sweepPoint_of_idle hq hidle) (Nat.succ_pos _) h hposition hplace
      (by rw [hsum]; simp)
    exact ⟨ht.seq, ht.pos, ht.bcd, ht.phase, ht.cnt, ht.en hposition⟩

end Sys2Proof.Machine
end

section
/-! One poll of a debouncer: when it fires, and what it stores, by itself, inside POLL_H and POLL_M, and as a
step with the pin held (R173, R175, R177, R179). -/

namespace Sys2Proof.Machine

/-! ### The verdict -/

/-- R177: a release never fires. -/
theorem Debouncer.fires_of_released {d : Debouncer} (h : d.pressed = false) (w n : Nat) : d.fires w n = false := by
  simp [Debouncer.fires, h]

/-- R177: while the stored level is 1 nothing fires. -/
theorem Debouncer.fires_of_lvl {d : Debouncer} (h : d.lvl = true) (w n : Nat) : d.fires w n = false := by
  simp [Debouncer.fires, h]

/-- R175: nothing fires within 200 ms of the timestamp. -/
theorem Debouncer.fires_of_elapsed_le {d : Debouncer} {w n : Nat} (h : subW w n d.tf ≤ 200) :
    d.fires w n = false := by
  refine Bool.eq_false_iff.mpr fun hf => ?_
  obtain ⟨-, -, helapsed⟩ := (d.fires_iff w n).mp hf
  omega

/-- R173, R175: the verdict with the elapsed time as `(now - tf) mod 2^W_MS` on integers (R11). -/
theorem State.fires_iff_int (s : State) (b : Button) :
    s.fires b = true ↔ (s.regs.debouncer b).pressed = true ∧ (s.regs.debouncer b).lvl = false ∧
      200 < ((s.pins.now : Int) - (s.regs.debouncer b).tf) % ((2 ^ s.params.wMs : Nat) : Int) := by
  rw [State.fires, Debouncer.fires_iff, ← subW_eq_int]
  norm_cast

/-! ### The operations that poll -/

/-- The sequencer's operation that polls a button's debouncer (R203, R204). -/
def pollOperation : Button → Instr
  | .hour => .pollH
  | .minute => .pollM

/-- R173, R203, R204: what a poll returns and stores, by itself or inside the sequencer's operation. -/
theorem exec_polled {i : Instr} {b : Button} {s t : State} (hi : i = .poll b ∨ i = pollOperation b)
    (h : exec i s = .next t) :
    t.fire = s.fires b ∧ (t.regs.debouncer b).lvl = (s.regs.debouncer b).pressed ∧
    (t.regs.debouncer b).tf = if s.fires b then s.pins.now else (s.regs.debouncer b).tf := by
  rcases hi with rfl | rfl <;> cases b <;> (injection h with h; subst h; exact ⟨rfl, rfl, rfl⟩)

/-- Settles O21: the verdict by `State.fires_iff_int`, the poll alone as one update, and the poll inside the sequencer's
operation by `exec_polled`. -/
theorem pollFiresAndStores : Obligations.PollFiresAndStores := by
  intro b s
  refine ⟨s.fires b, (s.regs.debouncer b).pressed, rfl, s.fires_iff_int b, rfl, pollOperation b, ?_⟩
  obtain ⟨t, ht⟩ := exec_next (pollOperation b) s
  refine ⟨t, ?_, ?_, ht, exec_polled (.inr rfl) ht⟩
  · cases b <;> rfl
  · cases b <;> rfl

/-- R5, R179: a timestamp of 0 is at most 200 ms away while `now` is at most 200, since `W_MS` is at least 11. -/
theorem State.fires_of_tf_zero {s : State} {b : Button} (hp : s.params.Wf) (htf : (s.regs.debouncer b).tf = 0)
    (hnow : s.pins.now ≤ 200) : s.fires b = false := by
  obtain ⟨hwidth, -⟩ := hp
  have hpow : 2 ^ 11 ≤ 2 ^ s.params.wMs := Nat.pow_le_pow_right Nat.two_pos hwidth
  apply Debouncer.fires_of_elapsed_le
  rwa [htf, subW_zero_right _ _ (by omega)]

/-- Settles O24: `State.fires_of_tf_zero`; a poll that does not fire keeps the timestamp. -/
theorem noPressFiresInTheFirst200Ms : Obligations.NoPressFiresInTheFirst200Ms := by
  refine ⟨fun s => ⟨_, rfl, fun b => ?_⟩, fun b s hp htf hnow => ?_⟩
  · cases b <;> rfl
  · have hquiet := State.fires_of_tf_zero hp htf hnow
    obtain ⟨t, ht⟩ := exec_next (.poll b) s
    obtain ⟨hfire, -, htf'⟩ := exec_polled (.inl rfl) ht
    refine ⟨t, ht, hfire.trans hquiet, ?_⟩
    rw [htf', hquiet, if_neg Bool.false_ne_true, htf]

/-! ### A poll alone as a step -/

/-- R173: a step that polls one debouncer alone, with its pin held at the level `p` (log entry 4). -/
theorem step_poll {b : Button} {p : Bool} {n : Nat} {rest : List Stimulus} {s t : State}
    (hs : s.pending = .poll b p n :: rest) (h : step s = .next t) :
    t.pending = rest ∧ (t.regs.debouncer b).lvl = p ∧
    (t.fire = true ↔ p = true ∧ (s.regs.debouncer b).lvl = false ∧
      200 < subW s.params.wMs (n % 2 ^ s.params.wMs) (s.regs.debouncer b).tf) ∧
    (t.regs.debouncer b).tf = if t.fire then n % 2 ^ s.params.wMs else (s.regs.debouncer b).tf := by
  rw [step_eq, State.nextStimulus_of_cons hs, State.fetched_of_cons hs] at h
  obtain ⟨hfire, hlvl, htf⟩ := exec_polled (.inl rfl) h
  rw [← hfire] at htf
  refine ⟨exec_pending h, ?_, ?_, ?_⟩
  · rw [hlvl]; simp
  · rw [hfire, State.fires, Debouncer.fires_iff]; simp [truncW]
  · rw [htf]; simp [truncW]

end Sys2Proof.Machine
end

section
/-! Polls of one debouncer in sequence: a held press, and two presses with a release between them (R176 to R178). -/

namespace Sys2Proof.Machine

/-- Settles O22: the first poll of a held press stores the level 1, and while it is 1 no poll fires. -/
theorem releaseAndHeldPressNeverFire : Obligations.ReleaseAndHeldPressNeverFire := by
  refine ⟨fun b s hreleased => ?_, fun b s hpressed => ?_, fun b s hlvl => ?_, fun b s t u n m rest hs ht hu => ?_⟩
  · obtain ⟨t, ht⟩ := exec_next (.poll b) s
    obtain ⟨hfire, hlvl, -⟩ := exec_polled (.inl rfl) ht
    exact ⟨t, ht, hfire.trans (Debouncer.fires_of_released hreleased _ _), hlvl.trans hreleased⟩
  · obtain ⟨t, ht⟩ := exec_next (.poll b) s
    obtain ⟨-, hlvl, -⟩ := exec_polled (.inl rfl) ht
    exact ⟨t, ht, hlvl.trans hpressed⟩
  · obtain ⟨t, ht⟩ := exec_next (.poll b) s
    obtain ⟨hfire, -, -⟩ := exec_polled (.inl rfl) ht
    exact ⟨t, ht, hfire.trans (Debouncer.fires_of_lvl hlvl _ _)⟩
  · obtain ⟨hpending, hlvl, -, -⟩ := step_poll hs ht
    obtain ⟨-, -, hfire, -⟩ := step_poll hpending hu
    refine Bool.eq_false_iff.mpr fun hf => ?_
    obtain ⟨-, hlvl', -⟩ := hfire.mp hf
    exact Bool.false_ne_true (hlvl'.symm.trans hlvl)

/-- R11: `sub_W` reads its second operand modulo `2^w`. -/
theorem subW_mod_right (w a b : Nat) : subW w a (b % 2 ^ w) = subW w a b := by
  simp only [subW, Nat.mod_mod]

/-- Settles O23: the firing stores `t`, the release keeps it and stores the level 0, so the second press is measured
against `t`. -/
theorem secondPressFiresAfterTheInterval : Obligations.SecondPressFiresAfterTheInterval := by
  intro b s s1 s2 s3 t x d rest hs h1 hfire1 h2 h3
  have hw2 : s2.params.wMs = s.params.wMs := by rw [step_params h2, step_params h1]
  obtain ⟨hpending1, -, -, htf1⟩ := step_poll hs h1
  obtain ⟨hpending2, hlvl2, hfire2, htf2⟩ := step_poll hpending1 h2
  obtain ⟨-, -, hfire3, -⟩ := step_poll hpending2 h3
  have hrelease : s2.fire = false := Bool.eq_false_iff.mpr fun hf => Bool.false_ne_true (hfire2.mp hf).1
  have htf : (s2.regs.debouncer b).tf = t % 2 ^ s.params.wMs := by
    rw [htf2, hrelease, if_neg Bool.false_ne_true, htf1, if_pos hfire1]
  rw [hw2, htf, subW_mod_right, subW_elapsed] at hfire3
  have hpress : s3.fire = true ↔ 200 < d % 2 ^ s.params.wMs :=
    hfire3.trans ⟨fun h => h.2.2, fun h => ⟨rfl, hlvl2, h⟩⟩
  refine ⟨hrelease, hpress, fun hd => ?_⟩
  rw [hpress, Nat.mod_eq_of_lt hd]

end Sys2Proof.Machine
end

section
/-! What every operation does to the debouncers: the level and the timestamp stay between polls, and an edge of the
clock core shifts both synchronisers (R171, R172, R174). -/

namespace Sys2Proof.Machine

/-- An operation of the sweep writes of the debouncers only their synchronisers, which shift (R171, R174). -/
theorem exec_mux_debouncers {i : Instr} {s t : State}
    (hi : i = .muxDrive ∨ i = .muxOn ∨ i = .muxOff ∨ i = .muxReserved) (h : exec i s = .next t) :
    t.regs.hour = s.regs.hour.shift s.pins.btnHourN ∧ t.regs.minute = s.regs.minute.shift s.pins.btnMinN := by
  rcases hi with rfl | rfl | rfl | rfl
  on_goal 2 => rw [exec_muxOn] at h
  on_goal 3 => rw [exec_muxOff] at h
  on_goal 4 => rw [exec_muxReserved, exec_muxOff] at h
  all_goals injection h with h; subst h; exact ⟨rfl, rfl⟩

/-- R174: an operation other than reset that does not poll a debouncer leaves its level and timestamp. -/
theorem exec_unpolled {i : Instr} {s t : State} {b : Button} (h : exec i s = .next t) (hr : i ≠ .reset)
    (hseq : i ≠ pollOperation b) (halone : i ≠ .poll b) :
    (t.regs.debouncer b).lvl = (s.regs.debouncer b).lvl ∧ (t.regs.debouncer b).tf = (s.regs.debouncer b).tf := by
  cases i with
  | reset => exact absurd rfl hr
  | poll c =>
    injection h with h; subst h
    cases b <;> cases c
    · exact absurd rfl halone
    · exact ⟨rfl, rfl⟩
    · exact ⟨rfl, rfl⟩
    · exact absurd rfl halone
  | pollH =>
    injection h with h; subst h
    cases b
    · exact absurd rfl hseq
    · exact ⟨rfl, rfl⟩
  | pollM =>
    injection h with h; subst h
    cases b
    · exact ⟨rfl, rfl⟩
    · exact absurd rfl hseq
  | muxDrive | muxOn | muxOff | muxReserved =>
    obtain ⟨hhour, hminute⟩ := exec_mux_debouncers (by simp) h
    cases b
    · rw [Regs.debouncer_hour, hhour]; exact ⟨rfl, rfl⟩
    · rw [Regs.debouncer_minute, hminute]; exact ⟨rfl, rfl⟩
  | _ => injection h with h; subst h; cases b <;> exact ⟨rfl, rfl⟩

/-- R171: every operation of an edge of the clock core without reset shifts both synchronisers. -/
theorem exec_edge_synchronisers {i : Instr} {s t : State} (hi : runsAlone i = false) (hr : i ≠ .reset)
    (h : exec i s = .next t) :
    t.regs.hour.sy = (s.regs.hour.shift s.pins.btnHourN).sy ∧
    t.regs.minute.sy = (s.regs.minute.shift s.pins.btnMinN).sy := by
  cases i with
  | reset => exact absurd rfl hr
  | gate | pollH | pollM => injection h with h; subst h; exact ⟨rfl, rfl⟩
  | muxDrive | muxOn | muxOff | muxReserved =>
    obtain ⟨hhour, hminute⟩ := exec_mux_debouncers (by simp) h
    rw [hhour, hminute]; exact ⟨rfl, rfl⟩
  | _ => exact absurd hi.symm Bool.false_ne_true

/-- Settles O26: `exec_unpolled` for each debouncer, and `exec_edge_synchronisers`. -/
theorem betweenPollsTheLevelAndTimestampStay : Obligations.BetweenPollsTheLevelAndTimestampStay := by
  intro i s t h hr
  refine ⟨exec_unpolled (b := .hour) h hr, exec_unpolled (b := .minute) h hr, fun hi => ?_⟩
  refine exec_edge_synchronisers ?_ hr h
  rcases hi with rfl | rfl | rfl | rfl | rfl | rfl | rfl <;> rfl

/-- R88, R89: `seq` and `phase` select an operation of the whole clock core, never reset. -/
theorem Regs.operation_notAlone_ne_reset (r : Regs) : runsAlone r.operation = false ∧ r.operation ≠ .reset := by
  unfold Regs.operation
  split <;> exact ⟨rfl, by simp⟩

/-- R171: an edge without reset shifts both synchronisers, whatever `seq` is. -/
theorem edge_synchronisers {v : Inputs} {s t : State} (hr : v.rst = false) (h : EdgeRun [v] s t) :
    t.regs.hour.sy = (s.regs.hour.shift v.btnHourN).sy ∧ t.regs.minute.sy = (s.regs.minute.shift v.btnMinN).sy := by
  obtain ⟨hclock, hne⟩ := s.regs.operation_notAlone_ne_reset
  simpa only [State.takeStimulus_regs, Inputs.sampled_btnHourN, Inputs.sampled_btnMinN] using
    exec_edge_synchronisers hclock hne (edge_exec hr h)

/-- R172: a pin reaches `pressed` in two shifts. -/
theorem Debouncer.pressed_of_two_shifts {d e f : Debouncer} {p q : Bool} (he : e.sy = (d.shift p).sy)
    (hf : f.sy = (e.shift q).sy) : f.pressed = !p := by
  have hpressed : f.pressed = (e.shift q).pressed := by rw [Debouncer.pressed, hf, Debouncer.pressed]
  rw [hpressed, Debouncer.shift_pressed, he, Debouncer.shift_sy_zero]

/-- Settles O25: each edge shifts by `edge_synchronisers`, and two shifts bring the first pin to `pressed`. -/
theorem pressedIsThePinTwoEdgesBefore : Obligations.PressedIsThePinTwoEdgesBefore := by
  refine ⟨fun v s t hr h => edge_synchronisers hr h, fun v w s t hv hw h => ?_, fun _ => rfl,
    fun _ => ⟨_, rfl, rfl, rfl⟩⟩
  obtain ⟨u, hu, ht⟩ := edgeRun_snoc (vs := [v]).mp h
  obtain ⟨hhour, hminute⟩ := edge_synchronisers hv hu
  obtain ⟨hhour', hminute'⟩ := edge_synchronisers hw ht
  exact ⟨Debouncer.pressed_of_two_shifts hhour hhour', Debouncer.pressed_of_two_shifts hminute hminute'⟩

end Sys2Proof.Machine
end

section
/-! The sequencer's operations outside the sweep: the next hour and the next minute on the time of day, each operation
as one update of the state, and what a fired poll changes (R202 to R204, R209, R210). -/

namespace Sys2Proof.Machine

/-! ### The next hour and the next minute -/

/-- The digits after a fired hour poll: SETH of `(GETH + 1) mod 24` (R203). -/
def Bank.nextHour (b : Bank) : Bank := b.setHours (BitVec.ofNat 5 ((b.readHours.toNat + 1) % 24))

/-- The digits after a fired minute poll: SETM of `(GETM + 1) mod 60` (R204). -/
def Bank.nextMinute (b : Bank) : Bank := b.setMinutes (BitVec.ofNat 6 ((b.readMinutes.toNat + 1) % 60))

/-- The next hour fits its operand (R82). -/
theorem Bank.nextHour_operand (b : Bank) :
    (BitVec.ofNat 5 ((b.readHours.toNat + 1) % 24)).toNat = (b.readHours.toNat + 1) % 24 := by
  rw [BitVec.toNat_ofNat]; omega

/-- The next minute fits its operand (R83). -/
theorem Bank.nextMinute_operand (b : Bank) :
    (BitVec.ofNat 6 ((b.readMinutes.toNat + 1) % 60)).toNat = (b.readMinutes.toNat + 1) % 60 := by
  rw [BitVec.toNat_ofNat]; omega

theorem Bank.setHours_hh (b : Bank) {h : BitVec 5} (hh : h.toNat ≤ 23) : (b.setHours h).hh = h.toNat := by
  rw [Bank.setHours_of_le b hh, Bank.hh, digit_ofNat_toNat (by omega), digit_ofNat_toNat (by omega)]
  exact Nat.div_add_mod _ _

theorem Bank.setMinutes_mm (b : Bank) {m : BitVec 6} (hm : m.toNat ≤ 59) : (b.setMinutes m).mm = m.toNat := by
  rw [Bank.setMinutes_of_le b hm, Bank.mm, digit_ofNat_toNat (by omega), digit_ofNat_toNat (by omega)]
  exact Nat.div_add_mod _ _

/-- R209: C, D, E and F stay. -/
theorem Bank.nextHour_frame (b : Bank) : b.nextHour = { b with A := b.nextHour.A, B := b.nextHour.B } :=
  b.setHours_frame _

/-- R210: A, B, E and F stay. -/
theorem Bank.nextMinute_frame (b : Bank) : b.nextMinute = { b with C := b.nextMinute.C, D := b.nextMinute.D } :=
  b.setMinutes_frame _

/-- R209: on an invariant state the hours count modulo 24; the minutes and seconds stay. -/
theorem Bank.nextHour_time {b : Bank} (hb : b.Inv) :
    b.nextHour.hh = (b.hh + 1) % 24 ∧ b.nextHour.mm = b.mm ∧ b.nextHour.ss = b.ss := by
  refine ⟨?_, ?_, ?_⟩
  · have hle := b.nextHour_operand.trans_le (by omega : _ ≤ 23)
    rw [Bank.nextHour, b.setHours_hh hle, b.nextHour_operand, Bank.readHours_eq_hh hb]
  · rw [b.nextHour_frame]; rfl
  · rw [b.nextHour_frame]; rfl

/-- R210: on an invariant state the minutes count modulo 60, without a carry; the hours and seconds stay. -/
theorem Bank.nextMinute_time {b : Bank} (hb : b.Inv) :
    b.nextMinute.mm = (b.mm + 1) % 60 ∧ b.nextMinute.hh = b.hh ∧ b.nextMinute.ss = b.ss := by
  refine ⟨?_, ?_, ?_⟩
  · have hle := b.nextMinute_operand.trans_le (by omega : _ ≤ 59)
    rw [Bank.nextMinute, b.setMinutes_mm hle, b.nextMinute_operand, Bank.readMinutes_eq_mm hb]
  · rw [b.nextMinute_frame]; rfl
  · rw [b.nextMinute_frame]; rfl

/-- R210: `hh:59:ss` becomes `hh:00:ss`. -/
theorem Bank.nextMinute_of_59 {b : Bank} (hb : b.Inv) (hm : b.mm = 59) : b.nextMinute = { b with C := 0, D := 0 } := by
  rw [Bank.nextMinute, Bank.readMinutes_eq_mm hb, hm]; rfl

/-! ### Each operation as one update -/

/-- R202: the gate's verdict with the elapsed time as `(now - last_sec) mod 2^W_MS` on integers (R11). -/
theorem State.gateDue_iff_int (s : State) :
    s.gateDue = true ↔ 1000 ≤ ((s.pins.now : Int) - s.regs.lastSec) % ((2 ^ s.params.wMs : Nat) : Int) := by
  rw [s.gateDue_iff, ← subW_eq_int]
  norm_cast

/-- R202: GATE in terms of ADV. -/
theorem exec_gate (s : State) :
    exec .gate s = .next { s with regs := { s.regs with
      bank := if s.gateDue then s.regs.bank.adv else s.regs.bank
      lastSec := if s.gateDue then s.pins.now else s.regs.lastSec
      seq := .pollH
      hour := s.regs.hour.shift s.pins.btnHourN
      minute := s.regs.minute.shift s.pins.btnMinN } } := by
  rw [← s.apply_gateWord]; rfl

/-- R203: POLL_H in terms of the poll and the next hour. -/
theorem exec_pollH (s : State) :
    exec .pollH s = .next { s with
      fire := s.fires .hour
      regs := { s.regs with
        bank := if s.fires .hour then s.regs.bank.nextHour else s.regs.bank
        seq := .pollM
        hour := (s.regs.hour.polled s.params.wMs s.pins.now).shift s.pins.btnHourN
        minute := s.regs.minute.shift s.pins.btnMinN } } := by
  rw [Bank.nextHour, ← s.apply_pollHWord]; rfl

/-- R204: POLL_M in terms of the poll and the next minute. -/
theorem exec_pollM (s : State) :
    exec .pollM s = .next { s with
      fire := s.fires .minute
      regs := { s.regs with
        bank := if s.fires .minute then s.regs.bank.nextMinute else s.regs.bank
        seq := .sweep
        pos := 0
        phase := .drive
        cnt := 0
        hour := s.regs.hour.shift s.pins.btnHourN
        minute := (s.regs.minute.polled s.params.wMs s.pins.now).shift s.pins.btnMinN } } := by
  rw [Bank.nextMinute, ← s.apply_pollMWord]; rfl

/-- Settles O27: `exec_gate`, with the verdict on integers. -/
theorem gateAdvancesWhenASecondIsDue : Obligations.GateAdvancesWhenASecondIsDue :=
  fun s => ⟨rfl, _, _, _, _, s.gateDue_iff_int, rfl, rfl, rfl, exec_gate s⟩

/-- Settles O28: `exec_pollH`, with the poll, the get and the set each as an operation by itself. -/
theorem pollHAdvancesTheHourOnAFiredEdge : Obligations.PollHAdvancesTheHourOnAFiredEdge :=
  fun s => ⟨rfl, _, _, _, _, _, rfl, rfl, rfl, rfl, rfl, exec_pollH s⟩

/-- Settles O29: `exec_pollM`, with the poll, the get and the set each as an operation by itself. -/
theorem pollMAdvancesTheMinuteAndStartsTheSweep : Obligations.PollMAdvancesTheMinuteAndStartsTheSweep :=
  fun s => ⟨rfl, _, _, _, _, _, rfl, rfl, rfl, rfl, rfl, exec_pollM s⟩

/-! ### The digits after each operation -/

/-- R202: the digits after GATE. -/
theorem exec_gate_bank {s t : State} (h : exec .gate s = .next t) :
    t.regs.bank = if s.gateDue then s.regs.bank.adv else s.regs.bank := by
  rw [exec_gate] at h; injection h with h; rw [← h]

/-- R203: the digits after POLL_H. -/
theorem exec_pollH_bank {s t : State} (h : exec .pollH s = .next t) :
    t.regs.bank = if t.fire then s.regs.bank.nextHour else s.regs.bank := by
  rw [exec_pollH] at h; injection h with h; rw [← h]

/-- R204: the digits after POLL_M. -/
theorem exec_pollM_bank {s t : State} (h : exec .pollM s = .next t) :
    t.regs.bank = if t.fire then s.regs.bank.nextMinute else s.regs.bank := by
  rw [exec_pollM] at h; injection h with h; rw [← h]

/-- Settles O30: a POLL_H that fires makes the digits `Bank.nextHour`, and only GATE writes `last_sec`. -/
theorem hourActionChangesOnlyTheHours : Obligations.HourActionChangesOnlyTheHours := by
  intro s t hb h hfire
  have hbank : t.regs.bank = s.regs.bank.nextHour := by rw [exec_pollH_bank h, if_pos hfire]
  obtain ⟨hhour, -, -⟩ := Bank.nextHour_time hb
  refine ⟨?_, ?_, exec_lastSec_of_ne h (by simp) (by simp), _, rfl, ?_⟩
  · rw [hbank]; exact s.regs.bank.nextHour_frame
  · rw [hbank, hhour]
  · rw [hbank, hhour, State.observe_rdata, Bank.readHours_eq_hh hb]

/-- Settles O31: a POLL_M that fires makes the digits `Bank.nextMinute`. -/
theorem minuteActionDoesNotCarry : Obligations.MinuteActionDoesNotCarry := by
  intro s t hb h hfire
  have hbank : t.regs.bank = s.regs.bank.nextMinute := by rw [exec_pollM_bank h, if_pos hfire]
  obtain ⟨hminute, -, -⟩ := Bank.nextMinute_time hb
  refine ⟨?_, ?_, ⟨_, rfl, ?_⟩, fun h59 => ?_⟩
  · rw [hbank]; exact s.regs.bank.nextMinute_frame
  · rw [hbank, hminute]
  · rw [hbank, hminute, State.observe_rdata, Bank.readMinutes_eq_mm hb]
  · rw [hbank]; exact Bank.nextMinute_of_59 hb h59

end Sys2Proof.Machine
end

section
/-! The command port (R100, R208): the words the sequencer drives, decoded, and the digits an edge makes of them. -/

namespace Sys2Proof.Machine

/-! ### The words -/

theorem decodeCommand_nopWord : decodeCommand nopWord = .nop 0 := rfl

theorem decodeCommand_advWord : decodeCommand advWord = .adv 0 := rfl

/-- R203: the word for the next hour is no reserved one. -/
theorem Bank.decodeCommand_nextHourWord (b : Bank) :
    decodeCommand b.nextHourWord = .seth (BitVec.ofNat 5 ((b.readHours.toNat + 1) % 24)) := by
  have h := decodeCommand_seth _ (b.nextHour_operand.trans_le (by omega))
  rwa [b.nextHour_operand] at h

/-- R204: the word for the next minute is no reserved one. -/
theorem Bank.decodeCommand_nextMinuteWord (b : Bank) :
    decodeCommand b.nextMinuteWord = .setm (BitVec.ofNat 6 ((b.readMinutes.toNat + 1) % 60)) := by
  have h := decodeCommand_setm _ (b.nextMinute_operand.trans_le (by omega))
  rwa [b.nextMinute_operand] at h

/-- R202: GATE drives NOP or ADV. -/
theorem State.decodeCommand_gateWord (s : State) :
    decodeCommand s.gateWord = .nop 0 ∨ decodeCommand s.gateWord = .adv 0 := by
  unfold State.gateWord
  split
  · exact .inr decodeCommand_advWord
  · exact .inl decodeCommand_nopWord

/-- R203: POLL_H drives NOP or SETH. -/
theorem State.decodeCommand_pollHWord (s : State) :
    decodeCommand s.pollHWord = .nop 0 ∨ ∃ h, decodeCommand s.pollHWord = .seth h := by
  unfold State.pollHWord
  split
  · exact .inr ⟨_, s.regs.bank.decodeCommand_nextHourWord⟩
  · exact .inl decodeCommand_nopWord

/-- R204: POLL_M drives NOP or SETM. -/
theorem State.decodeCommand_pollMWord (s : State) :
    decodeCommand s.pollMWord = .nop 0 ∨ ∃ m, decodeCommand s.pollMWord = .setm m := by
  unfold State.pollMWord
  split
  · exact .inr ⟨_, s.regs.bank.decodeCommand_nextMinuteWord⟩
  · exact .inl decodeCommand_nopWord

/-- The state of `seq` that drives a command which writes digits (R208). -/
def commandState : Instr → Option SeqState
  | .adv _ => some .gate
  | .seth _ => some .pollH
  | .setm _ => some .pollM
  | _ => none

/-- R208: a command that writes digits is driven only in its state of `seq`. -/
theorem State.seq_of_commandState {s : State} {q : SeqState}
    (h : commandState (decodeCommand s.sequencerWord) = some q) : s.regs.seq = q := by
  rw [State.sequencerWord] at h
  cases hq : s.regs.seq <;> simp only [hq] at h
  case gate =>
    rcases s.decodeCommand_gateWord with hw | hw
    · rw [hw] at h; exact nomatch h
    · rw [hw] at h; exact Option.some.inj h
  case pollH =>
    rcases s.decodeCommand_pollHWord with hw | ⟨x, hw⟩
    · rw [hw] at h; exact nomatch h
    · rw [hw] at h; exact Option.some.inj h
  case pollM =>
    rcases s.decodeCommand_pollMWord with hw | ⟨m, hw⟩
    · rw [hw] at h; exact nomatch h
    · rw [hw] at h; exact Option.some.inj h
  case sweep => rw [decodeCommand_nopWord] at h; exact nomatch h

/-- R205: NOP in every cycle of the sweep. -/
theorem State.sequencerWord_of_sweep {s : State} (hq : s.regs.seq = .sweep) : s.sequencerWord = nopWord := by
  rw [State.sequencerWord, hq]

/-! ### The digits after an edge -/

/-- R100: a command word makes the digits those of `Bank.apply`. -/
theorem State.bankAfter_decodeCommand (s : State) (w : CommandWord) :
    s.bankAfter (decodeCommand w) = s.regs.bank.apply w := by
  have halone := runsAlone_decodeCommand w
  unfold Bank.apply
  cases hw : decodeCommand w with
  | gate | pollH | pollM | reset => rw [hw] at halone; exact absurd halone Bool.false_ne_true
  | _ => rfl

/-- R201: the operation of `seq` and `phase` makes the digits those of the word the sequencer drives. -/
theorem State.bankAfter_operation (s : State) : s.bankAfter s.regs.operation = s.regs.bank.apply s.sequencerWord := by
  unfold Regs.operation State.sequencerWord
  cases s.regs.seq with
  | sweep => cases s.regs.phase <;> exact s.regs.bank.apply_nopWord.symm
  | _ => rfl

/-- An edge finds the registers as they stand before it. -/
theorem State.fetched_regs_of_edge {v : Inputs} {s : State} (h : s.EdgeNext v) : s.fetched.regs = s.regs := by
  rw [State.fetched_edge h]; exact s.takeStimulus_regs

/-- An edge without reset runs the operation of `seq` and `phase` on the fetched state (R201). -/
theorem edge_exec_fetched {v : Inputs} {s t : State} (hr : v.rst = false) (h : EdgeRun [v] s t) :
    s.fetched.regs = s.regs ∧ exec s.regs.operation s.fetched = .next t := by
  obtain ⟨hv, -⟩ := edgeRun_singleton.mp h
  refine ⟨State.fetched_regs_of_edge hv, ?_⟩
  rw [State.fetched_edge hv]
  exact edge_exec hr h

/-- R100, R201: the bank takes the word the sequencer drives. -/
theorem edge_bank {v : Inputs} {s t : State} (hr : v.rst = false) (h : EdgeRun [v] s t) :
    t.regs.bank = s.fetched.regs.bank.apply s.fetched.sequencerWord := by
  obtain ⟨hregs, he⟩ := edge_exec_fetched hr h
  rw [exec_bank he, ← hregs, State.bankAfter_operation]

/-- Settles O33: `edge_bank` against the word given to the bank alone, the words by `State.seq_of_commandState`, and the
digits over an edge of the sweep. -/
theorem sequencerDrivesTheCommandPort : Obligations.SequencerDrivesTheCommandPort := by
  refine ⟨fun v s t hr h => ?_, fun s => ⟨fun _ hw => ?_, fun _ hw => ?_, fun _ hw => ?_, fun hq => ?_⟩,
    fun v s t hr hq h => ?_⟩
  · obtain ⟨u, hu⟩ := exec_next (decodeCommand s.fetched.sequencerWord) s.fetched
    refine ⟨u, hu, ?_⟩
    rw [edge_bank hr h, exec_bank hu, State.bankAfter_decodeCommand]
  · exact State.seq_of_commandState (congrArg commandState hw)
  · exact State.seq_of_commandState (congrArg commandState hw)
  · exact State.seq_of_commandState (congrArg commandState hw)
  · exact State.sequencerWord_of_sweep hq
  · obtain ⟨-, hbank, -⟩ := sweep_edge hr h hq
    exact hbank

end Sys2Proof.Machine
end

section
/-! One iteration edge by edge (R206, R207): what the edge of each state of `seq` makes of the digits, when `last_sec`
stays, and the GATE cycle after a GATE cycle (R211). -/

namespace Sys2Proof.Machine

/-! ### The digits -/

/-- R202: the digits after an edge in GATE. -/
theorem gate_edge_bank {v : Inputs} {s t : State} (hr : v.rst = false) (h : EdgeRun [v] s t) (hq : s.regs.seq = .gate) :
    t.regs.bank = if s.fetched.gateDue then s.regs.bank.adv else s.regs.bank := by
  obtain ⟨hregs, he⟩ := edge_exec_fetched hr h
  rw [Regs.operation, hq] at he
  rw [exec_gate_bank he, hregs]

/-- R203: the digits after an edge in POLL_H. -/
theorem pollH_edge_bank {v : Inputs} {s t : State} (hr : v.rst = false) (h : EdgeRun [v] s t)
    (hq : s.regs.seq = .pollH) : t.regs.bank = if t.fire then s.regs.bank.nextHour else s.regs.bank := by
  obtain ⟨hregs, he⟩ := edge_exec_fetched hr h
  rw [Regs.operation, hq] at he
  rw [exec_pollH_bank he, hregs]

/-- R204: the digits after an edge in POLL_M. -/
theorem pollM_edge_bank {v : Inputs} {s t : State} (hr : v.rst = false) (h : EdgeRun [v] s t)
    (hq : s.regs.seq = .pollM) : t.regs.bank = if t.fire then s.regs.bank.nextMinute else s.regs.bank := by
  obtain ⟨hregs, he⟩ := edge_exec_fetched hr h
  rw [Regs.operation, hq] at he
  rw [exec_pollM_bank he, hregs]

theorem edge_bank_inv {v : Inputs} {s t : State} (hb : s.regs.bank.Inv) (h : EdgeRun [v] s t) : t.regs.bank.Inv :=
  step_bank_inv hb (edgeRun_singleton.mp h).2

/-- Settles O34: the digits after each of the three edges, from the invariant bank the edge before left. -/
theorem iterationOrderIsAdvThenHourThenMinute : Obligations.IterationOrderIsAdvThenHourThenMinute := by
  intro v0 v1 v2 s s1 s2 s3 hr hq hb h0 h1 h2
  have hr0 : v0.rst = false := hr v0 (by simp)
  have hr1 : v1.rst = false := hr v1 (by simp)
  have hr2 : v2.rst = false := hr v2 (by simp)
  have hq1 : s1.regs.seq = .pollH := ((outsideSweep_edge hr0 h0).1 hq).1
  have hq2 : s2.regs.seq = .pollM := ((outsideSweep_edge hr1 h1).2.1 hq1).1
  have hq3 : s3.regs.seq = .sweep := ((outsideSweep_edge hr2 h2).2.2 hq2).1
  have hb1 : s1.regs.bank.Inv := edge_bank_inv hb h0
  have hb2 : s2.regs.bank.Inv := edge_bank_inv hb1 h1
  obtain ⟨hhourH, hhourM, hhourS⟩ := Bank.nextHour_time hb1
  obtain ⟨hminM, hminH, hminS⟩ := Bank.nextMinute_time hb2
  refine ⟨hq1, hq2, hq3, ?_, ?_, ?_⟩
  · rw [gate_edge_bank hr0 h0 hq]
    split
    · exact Bank.adv_secondOfDay hb
    · rfl
  · rw [pollH_edge_bank hr1 h1 hq1]
    cases s2.fire
    · exact ⟨rfl, rfl, rfl⟩
    · exact ⟨hhourH, hhourM, hhourS⟩
  · rw [pollM_edge_bank hr2 h2 hq2]
    cases s3.fire
    · exact ⟨rfl, rfl, rfl⟩
    · exact ⟨hminM, hminH, hminS⟩

/-! ### `last_sec` -/

/-- R31: an edge writes `last_sec` only in GATE and only when a second is due. -/
theorem edge_lastSec_of_notDue {v : Inputs} {s t : State} (hr : v.rst = false) (h : EdgeRun [v] s t)
    (hd : s.regs.seq = .gate → s.fetched.gateDue = false) : t.regs.lastSec = s.regs.lastSec := by
  obtain ⟨hregs, he⟩ := edge_exec_fetched hr h
  cases hq : s.regs.seq with
  | gate =>
    rw [Regs.operation, hq] at he
    rw [exec_gate_lastSec he, hd hq, if_neg Bool.false_ne_true, hregs]
  | pollH | pollM =>
    rw [Regs.operation, hq] at he
    rw [exec_lastSec_of_ne he (by simp) (by simp), hregs]
  | sweep =>
    obtain ⟨-, -, hsec, -⟩ := sweep_edge hr h hq
    exact hsec

theorem edge_params {v : Inputs} {s t : State} (h : EdgeRun [v] s t) : t.params = s.params :=
  step_params (edgeRun_singleton.mp h).2

/-- A run begins with its first edge. -/
theorem edgeRun_cons {v : Inputs} {vs : List Inputs} {s t : State} :
    EdgeRun (v :: vs) s t ↔ ∃ u, EdgeRun [v] s u ∧ EdgeRun vs u t := by
  simp only [edgeRun_singleton]
  exact ⟨fun ⟨hv, u, hu, h⟩ => ⟨u, ⟨hv, hu⟩, h⟩, fun ⟨u, ⟨hv, hu⟩, h⟩ => ⟨hv, u, hu, h⟩⟩

theorem edgeRun_params {vs : List Inputs} {s t : State} (h : EdgeRun vs s t) : t.params = s.params := by
  induction vs generalizing s with
  | nil => exact congrArg State.params (Eq.symm h)
  | cons v vs ih =>
    obtain ⟨u, hu, ht⟩ := edgeRun_cons.mp h
    exact (ih ht).trans (edge_params hu)

/-- No cycle of a sweep writes `last_sec`. -/
theorem sweep_run_lastSec {vs : List Inputs} {s t : State} (hr : NoReset vs) (hp : s.params.Wf)
    (hq : s.regs.seq = .sweep) (hidle : s.regs.Idle) (hlen : vs.length ≤ 6 * (s.params.dwellCyc + 2))
    (h : EdgeRun vs s t) : t.regs.lastSec = s.regs.lastSec := by
  induction vs using List.reverseRecOn generalizing t with
  | nil => exact congrArg (fun u => u.regs.lastSec) (Eq.symm h)
  | append_singleton vs v ih =>
    obtain ⟨u, hu, hv⟩ := edgeRun_snoc.mp h
    have hrvs : NoReset vs := fun w hw => hr w (by simp [hw])
    rw [List.length_append, List.length_singleton] at hlen
    obtain ⟨hsweep, -⟩ := (sweepHasItsShape.2 vs s u hrvs hp hq hidle (by omega) hu).2 (by omega)
    obtain ⟨-, -, hsec, -⟩ := sweep_edge (hr v (by simp)) hv hsweep
    exact hsec.trans (ih hrvs (by omega) hu)

/-- R206: `P` edges after a GATE cycle is the next, and a boundary that was not yet due there is still the boundary. -/
theorem iteration_notDue {vs : List Inputs} {s g : State} (hr : NoReset vs) (hp : s.params.Wf)
    (hq : s.regs.seq = .gate) (hlen : vs.length = 6 * s.params.dwellCyc + 15) (h : EdgeRun vs s g)
    (hd : s.fetched.gateDue = false) : g.regs.seq = .gate ∧ g.regs.lastSec = s.regs.lastSec := by
  match vs, hr, hlen, h with
  | v0 :: v1 :: v2 :: vs, hr, hlen, h =>
    obtain ⟨s1, h0, h⟩ := edgeRun_cons.mp h
    obtain ⟨s2, h1, h⟩ := edgeRun_cons.mp h
    obtain ⟨s3, h2, h⟩ := edgeRun_cons.mp h
    have hr0 : v0.rst = false := hr v0 (by simp)
    have hr1 : v1.rst = false := hr v1 (by simp)
    have hr2 : v2.rst = false := hr v2 (by simp)
    have hrvs : NoReset vs := fun w hw => hr w (by simp [hw])
    have hparams : s3.params = s.params := by rw [edge_params h2, edge_params h1, edge_params h0]
    have hq1 : s1.regs.seq = .pollH := ((outsideSweep_edge hr0 h0).1 hq).1
    have hq2 : s2.regs.seq = .pollM := ((outsideSweep_edge hr1 h1).2.1 hq1).1
    obtain ⟨hq3, hidle⟩ := (outsideSweep_edge hr2 h2).2.2 hq2
    have hsec : s3.regs.lastSec = s.regs.lastSec := by
      rw [edge_lastSec_of_notDue hr2 h2 (by simp [hq2]), edge_lastSec_of_notDue hr1 h1 (by simp [hq1]),
        edge_lastSec_of_notDue hr0 h0 fun _ => hd]
    rw [← hparams] at hp hlen
    have hlen' : vs.length = 6 * (s3.params.dwellCyc + 2) := by simp only [List.length_cons] at hlen; omega
    obtain ⟨hgate, -⟩ := sweepPoint_run_end hrvs hp.2 (State.sweepPoint_of_idle hq3 hidle) h hlen'
    exact ⟨hgate, (sweep_run_lastSec hrvs hp hq3 hidle hlen'.le h).trans hsec⟩

/-! ### Elapsed time -/

/-- R68: `j` milliseconds later `sub_W` measures `j` more, modulo `2^w`. -/
theorem subW_add (w a b j : Nat) : subW w ((a + j) % 2 ^ w) b = (subW w a b + j) % 2 ^ w := by
  have h : (subW w ((a + j) % 2 ^ w) b : Int) = (((subW w a b + j) % 2 ^ w : Nat) : Int) := by
    rw [Int.natCast_emod, Nat.cast_add, subW_eq_int, subW_eq_int, Int.emod_add_emod, Int.natCast_emod,
      Int.emod_sub_emod, Nat.cast_add, add_sub_right_comm]
  exact_mod_cast h

/-- Settles O36: the boundary stays by `iteration_notDue`, so the second cycle measures at most `J` more than the at
most 999 ms of the first. -/
theorem consecutiveSecondsAreAtMostOneIterationLate : Obligations.ConsecutiveSecondsAreAtMostOneIterationLate := by
  intro v vs w s g j J hr hp hq hlen h hd hw hnow hj hJ hdue
  obtain ⟨hgate, hsec⟩ := iteration_notDue hr hp hq hlen h hd
  have hparams : g.params = s.params := edgeRun_params h
  obtain ⟨hs, -⟩ : s.EdgeNext v ∧ _ := h
  have hearly : subW s.params.wMs s.fetched.pins.now s.regs.lastSec < 1000 := by
    rw [← Bool.not_eq_true, State.gateDue_iff, State.fetched_params, State.fetched_regs_of_edge hs] at hd
    omega
  have hlate : g.fetched.pins.now = (s.fetched.pins.now + j) % 2 ^ s.params.wMs := by
    rw [State.fetched_edge hw, ← hnow, ← hparams]
    simp
  rw [State.gateDue_iff, State.fetched_params, State.fetched_regs_of_edge hw, hparams, hsec] at hdue
  refine ⟨hgate, hsec, hdue, ?_⟩
  rw [hlate, subW_add, Nat.mod_eq_of_lt (by omega)]
  omega

end Sys2Proof.Machine
end

section
/-! No operation and no step stops the machine (60_exceptions.md R230). -/

namespace Sys2Proof.Machine

/-- A step is never refused, since every stimulus selects an operation (R93), and the operation itself answers. -/
theorem step_next (s : State) : ∃ t, step s = .next t := by
  rw [step_eq]
  exact exec_next _ _

/-- Settles O8: `exec_next` for every operation, and `step_next` since a step runs one. -/
theorem noOperationFaultsOrHalts : Obligations.NoOperationFaultsOrHalts :=
  ⟨exec_next, step_next⟩

end Sys2Proof.Machine
end

section
/-! How long an iteration lasts (R206, R271): the three edges that lead from GATE into the sweep, and the sweep's own length
after them. -/

namespace Sys2Proof.Machine

/-- R202 to R204: three edges after a GATE cycle the sweep starts from rest, and the run goes on from there. -/
theorem edgeRun_gate_to_sweep {v0 v1 v2 : Inputs} {vs : List Inputs} {s t : State} (hr : NoReset (v0 :: v1 :: v2 :: vs))
    (hq : s.regs.seq = .gate) (h : EdgeRun (v0 :: v1 :: v2 :: vs) s t) :
    ∃ u, u.params = s.params ∧ u.regs.seq = .sweep ∧ u.regs.Idle ∧ EdgeRun vs u t := by
  obtain ⟨s1, h0, h⟩ := edgeRun_cons.mp h
  obtain ⟨s2, h1, h⟩ := edgeRun_cons.mp h
  obtain ⟨s3, h2, h⟩ := edgeRun_cons.mp h
  have hq1 : s1.regs.seq = .pollH := ((outsideSweep_edge (hr v0 (by simp)) h0).1 hq).1
  have hq2 : s2.regs.seq = .pollM := ((outsideSweep_edge (hr v1 (by simp)) h1).2.1 hq1).1
  obtain ⟨hq3, hidle⟩ := (outsideSweep_edge (hr v2 (by simp)) h2).2.2 hq2
  exact ⟨s3, by rw [edge_params h2, edge_params h1, edge_params h0], hq3, hidle, h⟩

/-- R202, R203: `seq` one and two edges after a GATE cycle. -/
theorem edgeRun_gate_seq_of_lt_three {vs : List Inputs} {s t : State} (hr : NoReset vs) (hq : s.regs.seq = .gate)
    (h : EdgeRun vs s t) (hpos : 0 < vs.length) (hlen : vs.length < 3) :
    t.regs.seq = .pollH ∨ t.regs.seq = .pollM := by
  rcases vs with _ | ⟨v0, _ | ⟨v1, _ | ⟨v2, vs⟩⟩⟩
  · exact absurd hpos (Nat.lt_irrefl 0)
  · exact .inl ((outsideSweep_edge (hr v0 (by simp)) h).1 hq).1
  · obtain ⟨s1, h0, h1⟩ := edgeRun_cons.mp h
    have hq1 : s1.regs.seq = .pollH := ((outsideSweep_edge (hr v0 (by simp)) h0).1 hq).1
    exact .inr ((outsideSweep_edge (hr v1 (by simp)) h1).2.1 hq1).1
  · exact absurd hlen (by simp)

/-- R149, R206: from the third edge after a GATE cycle on, `seq` is SWEEP until the `P`-th edge makes it GATE. -/
theorem edgeRun_gate_seq_of_three_le {vs : List Inputs} {s t : State} (hr : NoReset vs) (hp : s.params.Wf)
    (hq : s.regs.seq = .gate) (h : EdgeRun vs s t) (hlen : 3 ≤ vs.length) :
    (vs.length = Config.iterationCycles s.params → t.regs.seq = .gate) ∧
    (vs.length < Config.iterationCycles s.params → t.regs.seq = .sweep) := by
  obtain ⟨v0, v1, v2, vs, rfl⟩ : ∃ v0 v1 v2 ws, vs = v0 :: v1 :: v2 :: ws := by
    rcases vs with _ | ⟨v0, _ | ⟨v1, _ | ⟨v2, ws⟩⟩⟩
    case cons.cons.cons => exact ⟨v0, v1, v2, ws, rfl⟩
    all_goals exact absurd hlen (by simp)
  obtain ⟨u, hparams, hsweep, hidle, hu⟩ := edgeRun_gate_to_sweep hr hq h
  have hrvs : NoReset vs := fun w hw => hr w (by simp [hw])
  have hcycles : Config.iterationCycles s.params = 3 + 6 * (u.params.dwellCyc + 2) := by rw [hparams]; rfl
  have hshape := sweepHasItsShape.2 vs u t hrvs (hparams ▸ hp) hsweep hidle
  simp only [List.length_cons, hcycles]
  refine ⟨fun hl => ?_, fun hl => ?_⟩
  · obtain ⟨hgate, -⟩ := (hshape (by omega) hu).1 (by omega)
    exact hgate
  · obtain ⟨hstay, -⟩ := (hshape (by omega) hu).2 (by omega)
    exact hstay

theorem iterationCycles_eq (p : Params) : Config.iterationCycles p = 6 * p.dwellCyc + 15 := by
  simp only [Config.iterationCycles, Config.sweepCycles]
  omega

/-- Settles O44: the lengths 1 and 2 by `edgeRun_gate_seq_of_lt_three`, those from 3 to `P` by
`edgeRun_gate_seq_of_three_le`. -/
theorem iterationLastsPCycles : Obligations.IterationLastsPCycles := by
  refine ⟨fun vs s t hr hp hq h => ?_, fun p => ⟨iterationCycles_eq p, rfl, ?_⟩⟩
  · have hlong := edgeRun_gate_seq_of_three_le hr hp hq h
    rw [iterationCycles_eq] at hlong
    exact ⟨fun hl => (hlong (by omega)).1 hl, fun ⟨hpos, hl⟩ => edgeRun_gate_seq_of_lt_three hr hq h hpos hl,
      fun ⟨h3, hl⟩ => (hlong h3).2 hl⟩
  · rw [Config.iterationTime, iterationCycles_eq]

end Sys2Proof.Machine
end

section
/-! Reset (R260 to R262): the step that resets, the outputs while reset is held, and the first GATE cycle after it. -/

namespace Sys2Proof.Machine

/-- R260: a stimulus with `rst = 1`, of the clock core or of the bank alone, runs RESET (log entry 19). -/
theorem step_reset_of_rst {s : State} (h : (∃ v : Inputs, v.rst = true ∧ s.nextStimulus = .edge v) ∨
    ∃ w, s.nextStimulus = .command true w) : step s = exec .reset s.fetched := by
  rw [step_eq]
  obtain ⟨v, hv, hs⟩ | ⟨w, hs⟩ := h
  · rw [hs, Stimulus.operation, if_pos hv]
  · rw [hs]; rfl

/-- Settles O46: RESET loads `Regs.reset`, whose fields are the values listed, and `rst = 1` runs RESET. -/
theorem resetLoadsTheResetValues : Obligations.ResetLoadsTheResetValues :=
  fun _ => ⟨⟨_, rfl, rfl, rfl, rfl, rfl, rfl, rfl, rfl, rfl, rfl⟩, step_reset_of_rst⟩

/-- R141, R142: with the registers of reset nothing is lit and `bcd` is `dig[0]`, which is 0. -/
theorem State.outputs_of_reset {s : State} (h : s.regs = Regs.reset) : s.en = 0 ∧ s.bcd = 0 := by
  refine ⟨State.en_of_ne_sweep ?_, ?_⟩
  · rw [h]; decide
  · rw [State.bcd_eq, h]; rfl

/-- Settles O47: the last edge of the run is a reset edge, whatever the ones before it did. -/
theorem nothingIsLitDuringReset : Obligations.NothingIsLitDuringReset := by
  intro vs s t hne hrst h
  rw [← List.dropLast_append_getLast hne] at h
  obtain ⟨u, -, hlast⟩ := edgeRun_snoc.mp h
  have hregs : t.regs = Regs.reset := edge_reset (hrst _ (List.getLast_mem hne)) hlast
  exact ⟨hregs, State.outputs_of_reset hregs⟩

/-- R202, R262: against a `last_sec` of 0 a second is due once `now` reads 1000. -/
theorem State.gateDue_of_lastSec_zero {s : State} (hsec : s.regs.lastSec = 0) (hnow : s.pins.now < 2 ^ s.params.wMs) :
    s.gateDue = true ↔ 1000 ≤ s.pins.now := by
  rw [s.gateDue_iff, hsec, subW_zero_right _ _ hnow]

/-- Settles O48: the digits and `last_sec` of `exec_gate_bank` and `exec_gate_lastSec`, by the verdict on `now` alone. -/
theorem firstSecondAfterReset : Obligations.FirstSecondAfterReset := by
  intro s hs hnow
  obtain ⟨t, ht⟩ := exec_next .gate s
  have hdue := State.gateDue_of_lastSec_zero (by rw [hs]; rfl) hnow
  refine ⟨t, ht, fun h => ?_, fun h => ?_⟩
  · rw [exec_gate_bank ht, exec_gate_lastSec ht, if_pos (hdue.mpr h), if_pos (hdue.mpr h), hs]
    exact ⟨by decide, rfl⟩
  · have hnot : ¬ s.gateDue = true := fun hd => absurd (hdue.mp hd) (by omega)
    rw [exec_gate_bank ht, exec_gate_lastSec ht, if_neg hnot, if_neg hnot, hs]
    exact ⟨rfl, rfl⟩

end Sys2Proof.Machine
end
